-- ==== Sys2Proof/Word.lean ====
section
/-! DEFINITION. The cell of the machine and the parameter built from one: `Word` (a signed 64-bit cell), the three
addressing modes, and a decoded parameter. Spec: 00_scope.md R5, 30_encoding.md R52, R55, and the glossary's Parameter. -/

namespace Sys2Proof

/-- A cell, an input or output value, `ip` and `rb`: the 64 bits of a signed two's complement number (R4, R5).
`BitVec.toInt` is its value in -2^63 .. 2^63-1. -/
abbrev Word := BitVec 64

/-- The addressing modes a mode digit can name (R55): 0 Position, 1 Immediate, 2 Relative. -/
inductive Mode where
  | position
  | immediate
  | relative
  deriving DecidableEq, Repr

/-- A decoded parameter: its addressing mode and its raw parameter cell (R52, R55; the source's tagged
Position(address), Immediate(value), Relative(offset)). -/
structure Param where
  mode : Mode
  raw : Word
  deriving DecidableEq, Repr

end Sys2Proof
end

