-- ==== Sys2Proof/Config.lean ====
section
/-! DEFINITION. The fixed parameters of the machine (00_scope.md R4). The spec leaves no value of the machine open, so
there is no free value here. Queue, buffer and memory capacities are unbounded (R19, R20, R47) and need no constant; the
executor's step budget FUEL is an argument of `runFor` (Machine/HostOps.lean), not a constant of the machine. -/

namespace Sys2Proof.Config

/-- MAXADDR = 2^63 - 1, the highest valid cell address (R4, R31). -/
def maxAddr : Int := 9223372036854775807

/-- The largest value of the extent register `len`, 2^63 (R4, R17). -/
def maxLen : Nat := 9223372036854775808

/-- The entry point, the value of `ip` after reset (R4, R24, R38). -/
def entryPoint : Word := 0

end Sys2Proof.Config
end

