-- ==== Sys2Proof/Machine/State.lean ====
section
/-! DEFINITION. The state of the machine, exactly the eight items of 10_state.md R10, the reasons a step can stop, and the
state after reset. There is no field beyond the spec's: nothing the spec leaves undefined needs a free value. -/

namespace Sys2Proof.Machine

/-- The run status (R15). -/
inductive Status where
  | running
  | waitingForInput
  | halted
  deriving DecidableEq, Repr

/-- A fault record, with the information 60_exceptions.md R140 lists for its cause. -/
inductive FaultRecord where
  /-- Cause 1: the whole word and `ip`. -/
  | unknownOpcode (w ip : Word)
  /-- Cause 2: the exact offending address and `ip`. -/
  | invalidAddress (a : Int) (ip : Word)
  /-- Cause 3: the word, `ip` and the number of the write parameter. -/
  | invalidWriteTarget (w ip : Word) (k : Nat)
  /-- Cause 4: the word, `ip` and the number of the parameter. -/
  | invalidMode (w ip : Word) (k : Nat)
  deriving DecidableEq, Repr

/-- The cell memory, as the list of the cells that are not 0, by strictly rising address. An unlisted address reads as 0
(R18: every address "that neither the program image nor a write has set"). The cell is the smallest addressable unit
(R30, R35), so entries hold cells, not bytes (log 1). -/
abbrev Memory := List (Nat × Word)

/-- The canonical form of a memory: addresses strictly rising and no entry equal to what an unlisted address reads as. -/
abbrev Memory.wf (m : Memory) : Prop :=
  m.Pairwise (fun c d => c.1 < d.1) ∧ ∀ c ∈ m, c.2 ≠ 0

/-- The complete architectural state of one core (R10). -/
structure State where
  /-- `M`, the cells (R18). -/
  mem : Memory
  /-- `len`, the memory extent (R17). -/
  len : Nat
  /-- `ip`, the instruction pointer (R12). -/
  ip : Word
  /-- `rb`, the relative base (R14). -/
  rb : Word
  /-- `status`, the run status (R15). -/
  status : Status
  /-- `fault`, the fault latch (R16). -/
  fault : Option FaultRecord
  /-- `IQ`, the input queue, oldest element first (R19). -/
  iq : List Word
  /-- `OB`, the output buffer, oldest element first (R20). -/
  ob : List Word
  deriving DecidableEq, Repr

/-- Why a step can stop. -/
inductive Fault where
  /-- Raised by `step`, and by nothing else, in a state whose fault latch already holds a record: the core executes
  nothing any more and the same record is reported again (R16, R85). Safe: the machine stops there too. No meaning of
  an instruction raises it; a meaning that finds a fault answers a next state with the latch written (R141). -/
  | latched (r : FaultRecord)
  deriving DecidableEq, Repr

/-- Why a step could be refused. -/
inductive Refusal where
  /-- For an instruction without a meaning, in its arm of `exec`; safe. No arm uses it: every instruction has its
  meaning. -/
  | notModelled (mnemonic : String)
  deriving DecidableEq, Repr

/-- The state right after reset: the load of the empty program with no input (R24, R120, D28). A program comes into the
machine by `load` (Machine/HostOps.lean); log 9. -/
def State.reset : State where
  mem := []
  len := 0
  ip := Config.entryPoint
  rb := 0
  status := .running
  fault := none
  iq := []
  ob := []

end Sys2Proof.Machine
end

