-- ==== Sys2Proof/Machine/Ops.lean ====
section
/-! DEFINITION. The named operations over memory, registers, queues and the fault latch (00_scope.md R7): every read and
write of the state goes through them. Taking a fault is `State.raise`; there is no operation that returns from one,
because the spec has none (60_exceptions.md R148). -/

namespace Sys2Proof.Machine

/-- The outcome of a step of this machine. -/
abbrev Result := Host.Outcome State Fault Refusal

/-- `wrap64(v)` of R5: the 64-bit number congruent to `v` modulo 2^64. -/
def wrap64 (v : Int) : Word := BitVec.ofInt 64 v

/-- `MemRead` of R33 on the cell list; 0 at every unlisted address (R18). -/
def Memory.read : Memory → Nat → Word
  | [], _ => 0
  | (b, v) :: rest, a => if a = b then v else Memory.read rest a

/-- The cell list with cell `a` set to `v`, in canonical form: writing 0 removes the entry. -/
def Memory.write : Memory → Nat → Word → Memory
  | [], a, v => if v = 0 then [] else [(a, v)]
  | (b, u) :: rest, a, v =>
    if a < b then (if v = 0 then (b, u) :: rest else (a, v) :: (b, u) :: rest)
    else if a = b then (if v = 0 then rest else (a, v) :: rest)
    else (b, u) :: Memory.write rest a v

/-- The canonical cell list that holds `vs` from address `base` up (the load of R24). -/
def Memory.ofCells : Nat → List Word → Memory
  | _, [] => []
  | base, v :: vs =>
    if v = 0 then Memory.ofCells (base + 1) vs else (base, v) :: Memory.ofCells (base + 1) vs

/-- `MemRead(a, 1)` of R33: changes nothing, gives 0 at or beyond the extent. -/
def State.memRead (s : State) (a : Nat) : Word := s.mem.read a

/-- `MemWrite(a, 1, v)` of R34: stores the cell and raises the extent if `a` is at or beyond it. -/
def State.memWrite (s : State) (a : Nat) (v : Word) : State :=
  { s with mem := s.mem.write a v, len := if s.len ≤ a then a + 1 else s.len }

/-- The address is one of 0 .. MAXADDR (R31). -/
def validAddr (a : Int) : Bool := decide (0 ≤ a) && decide (a ≤ Config.maxAddr)

/-- `CheckAddr(a)` of R32: the address as a cell number, or the InvalidAddress record with the exact address. -/
def State.checkAddr (s : State) (a : Int) : Except FaultRecord Nat :=
  if validAddr a then .ok a.toNat else .error (.invalidAddress a s.ip)

/-- The advance range check of R74: `ip + size`, computed exactly, must be at most MAXADDR. -/
def State.checkAdvance (s : State) (size : Nat) : Except FaultRecord Unit :=
  if s.ip.toInt + size ≤ Config.maxAddr then .ok () else .error (.invalidAddress (s.ip.toInt + size) s.ip)

/-- TAKING A FAULT, `raise` of R141: latch the record and change nothing else. The latch is written only when it holds
none (R16). -/
def State.raise (s : State) (r : FaultRecord) : State :=
  { s with fault := s.fault.or (some r) }

/-- `ip <- t` (R12). -/
def State.setIp (s : State) (t : Word) : State := { s with ip := t }

/-- `ip <- ip + size` (R12). The sum fits the register wherever `checkAdvance` has passed. -/
def State.advance (s : State) (size : Nat) : State := s.setIp (wrap64 (s.ip.toInt + size))

/-- `rb <- v` (R14). -/
def State.setRb (s : State) (v : Word) : State := { s with rb := v }

/-- `status <- v` (R15). -/
def State.setStatus (s : State) (v : Status) : State := { s with status := v }

/-- `IQ` after its front has been popped: `rest` is what remains (R19). -/
def State.setQueue (s : State) (rest : List Word) : State := { s with iq := rest }

/-- `OB.append(v)`: `v` becomes the newest element (R20). -/
def State.appendOutput (s : State) (v : Word) : State := { s with ob := s.ob ++ [v] }

/-- The end of an instruction's stages: the next state, or, where a stage raised, the state with the fault taken (R70,
R141). A fault is a next state, and everything else in it is as before the instruction. -/
def State.complete (s : State) (r : Except FaultRecord State) : Result :=
  match r with
  | .ok t => .next t
  | .error f => .next (s.raise f)

/-- The numeric label of a status (R15). -/
def Status.code : Status → Nat
  | .running => 0
  | .waitingForInput => 1
  | .halted => 2

/-- The cause code of a fault record (R140). -/
def FaultRecord.code : FaultRecord → Nat
  | .unknownOpcode _ _ => 1
  | .invalidAddress _ _ => 2
  | .invalidWriteTarget _ _ _ => 3
  | .invalidMode _ _ _ => 4

end Sys2Proof.Machine
end

