-- ==== Sys2Proof/Machine/Operands.lean ====
section
/-! DEFINITION. Operand resolution, the three addressing modes (40_execution_cycle.md R78, R79, R88). Sums are exact and
checked, never wrapped (20_memory.md R31). With it the stages that instructions of one format share: the advance check,
the operands in order, the effect. -/

namespace Sys2Proof.Machine

/-- The exact address a Position or Relative parameter names: `p` or `rb + p` (R56, R78, R79). An Immediate parameter
names no address; for it the function gives the raw cell, and nothing uses that. -/
def State.operandAddr (s : State) (p : Param) : Int :=
  match p.mode with
  | .position => p.raw.toInt
  | .immediate => p.raw.toInt
  | .relative => s.rb.toInt + p.raw.toInt

/-- The value of the cell at an exact address, after `CheckAddr` (R32, R33). -/
def State.loadCell (s : State) (a : Int) : Except FaultRecord Word :=
  match s.checkAddr a with
  | .ok n => .ok (s.memRead n)
  | .error f => .error f

/-- `ReadValue(m, p)` of R78. -/
def State.readValue (s : State) (p : Param) : Except FaultRecord Word :=
  match p.mode with
  | .position => s.loadCell (s.operandAddr p)
  | .immediate => .ok p.raw
  | .relative => s.loadCell (s.operandAddr p)

/-- `WriteAddr(m, p)` of R79 for write parameter number `k`. An Immediate write parameter never comes from the decoder
(R60). DESIGN CHOICE (log 7): on such an ill-formed term the record is the one R140 lists for it, with the word at `ip`. -/
def State.writeAddr (s : State) (k : Nat) (p : Param) : Except FaultRecord Nat :=
  match p.mode with
  | .position => s.checkAddr (s.operandAddr p)
  | .immediate => .error (.invalidWriteTarget (s.memRead s.ip.toNat) s.ip k)
  | .relative => s.checkAddr (s.operandAddr p)

/-- The stages of an F3 instruction (R50, R70): the advance check, operands 1, 2 and 3 in order, then the one write of
`f v1 v2` and the advance by 4. All reads precede the write (R46). -/
def State.computeStore (s : State) (f : Word → Word → Word) (a b dst : Param) : Except FaultRecord State := do
  s.checkAdvance 4
  let v1 ← s.readValue a
  let v2 ← s.readValue b
  let d ← s.writeAddr 3 dst
  .ok ((s.memWrite d (f v1 v2)).advance 4)

/-- The stages of an F2 instruction (R50, R70): the advance check, both operands in order whether or not the jump is
taken, then the target or the advance by 3. -/
def State.jumpWhen (s : State) (taken : Word → Bool) (test target : Param) : Except FaultRecord State := do
  s.checkAdvance 3
  let v1 ← s.readValue test
  let v2 ← s.readValue target
  .ok (if taken v1 then s.setIp v2 else s.advance 3)

end Sys2Proof.Machine
end

