-- ==== Sys2Proof/Machine/Flags.lean ====
section
/-! DEFINITION. The machine has no status flags, condition codes or predicates (10_state.md R13). What takes their place
is here: the Boolean results the compares write as cells, the tests the conditional jumps make on an ordinary value, and
the two arithmetic results, which record no carry and no overflow. -/

namespace Sys2Proof.Machine

/-- A Boolean result as an ordinary cell value: 1 or 0 (R13). -/
def boolCell (b : Bool) : Word := if b then 1 else 0

/-- The result of Add: the exact sum, wrapped (R90). -/
def sumCell (x y : Word) : Word := wrap64 (x.toInt + y.toInt)

/-- The result of Multiply: the exact product, wrapped (R91). -/
def productCell (x y : Word) : Word := wrap64 (x.toInt * y.toInt)

/-- The result of LessThan: the signed comparison of the two values as integers (R105). -/
def lessCell (x y : Word) : Word := boolCell (decide (x.toInt < y.toInt))

/-- The result of Equals (R106). -/
def equalCell (x y : Word) : Word := boolCell (decide (x.toInt = y.toInt))

/-- The test of JumpIfTrue: any non-zero value, negative included (R100). -/
def testTrue (x : Word) : Bool := decide (x.toInt ≠ 0)

/-- The test of JumpIfFalse: exactly the value 0 (R101). -/
def testFalse (x : Word) : Bool := decide (x.toInt = 0)

end Sys2Proof.Machine
end

