-- ==== Sys2Proof/Machine/Arithmetic.lean ====
section
/-! DEFINITION. The arithmetic instructions, Add and Multiply (41_arithmetic.md). -/

namespace Sys2Proof.Machine

/-- Add (R90). -/
def execAdd (a b dst : Param) (s : State) : Result := s.complete (s.computeStore sumCell a b dst)

/-- Multiply (R91). -/
def execMultiply (a b dst : Param) (s : State) : Result := s.complete (s.computeStore productCell a b dst)

end Sys2Proof.Machine
end

