-- ==== Sys2Proof/Machine/Compare.lean ====
section
/-! DEFINITION. The compare instructions (44_compare.md). -/

namespace Sys2Proof.Machine

/-- LessThan (R105). -/
def execLessThan (a b dst : Param) (s : State) : Result := s.complete (s.computeStore lessCell a b dst)

/-- Equals (R106). -/
def execEquals (a b dst : Param) (s : State) : Result := s.complete (s.computeStore equalCell a b dst)

end Sys2Proof.Machine
end

