-- ==== Sys2Proof/Machine/Halt.lean ====
section
/-! DEFINITION. Halt and the implicit halt (46_halt.md). -/

namespace Sys2Proof.Machine

/-- Halt (R113): only `status` is written; `ip` keeps the address of the Halt word. -/
def execHalt (s : State) : Result := .next (s.setStatus .halted)

/-- The implicit halt (R114, R72), which is not an instruction: only `status` is written. -/
def implicitHalt (s : State) : Result := .next (s.setStatus .halted)

end Sys2Proof.Machine
end

