-- ==== Sys2Proof/Machine/InputOutput.lean ====
section
/-! DEFINITION. The input and output instructions (42_io.md). -/

namespace Sys2Proof.Machine

/-- Input (R95, R77). With an empty queue it blocks: only `status` changes, and the destination is not resolved.
Otherwise the destination is resolved first, so a faulting Input pops nothing. -/
def execInput (dst : Param) (s : State) : Result :=
  s.complete (do
    s.checkAdvance 2
    match s.iq with
    | [] => .ok (s.setStatus .waitingForInput)
    | x :: rest =>
      let d ← s.writeAddr 1 dst
      .ok (((s.setQueue rest).memWrite d x).advance 2))

/-- Output (R96). -/
def execOutput (v : Param) (s : State) : Result :=
  s.complete (do
    s.checkAdvance 2
    let v1 ← s.readValue v
    .ok ((s.appendOutput v1).advance 2))

end Sys2Proof.Machine
end

