-- ==== Sys2Proof/Machine/Jumps.lean ====
section
/-! DEFINITION. The control-transfer instructions (43_jumps.md). The value loaded into `ip` is not checked by the jump
(R102). -/

namespace Sys2Proof.Machine

/-- JumpIfTrue (R100). -/
def execJumpIfTrue (test target : Param) (s : State) : Result := s.complete (s.jumpWhen testTrue test target)

/-- JumpIfFalse (R101). -/
def execJumpIfFalse (test target : Param) (s : State) : Result := s.complete (s.jumpWhen testFalse test target)

end Sys2Proof.Machine
end

