-- ==== Sys2Proof/Machine/RelativeBase.lean ====
section
/-! DEFINITION. The relative-base instruction (45_relative_base.md). -/

namespace Sys2Proof.Machine

/-- AdjustRelativeBase (R110): a Relative operand is fetched with the old `rb`; the register update wraps. -/
def execAdjustRelativeBase (a : Param) (s : State) : Result :=
  s.complete (do
    s.checkAdvance 2
    let v1 ← s.readValue a
    .ok ((s.setRb (wrap64 (s.rb.toInt + v1.toInt))).advance 2))

end Sys2Proof.Machine
end

