-- ==== Sys2Proof/Syntax.lean ====
section
/-! DEFINITION. The ten instructions, one constructor per row of spec/opcode_table.json (30_encoding.md R53, formats R50).
Arguments stand in parameter order 1, 2, 3. -/

namespace Sys2Proof

/-- A decoded instruction with its parameters (R50, R53). -/
inductive Instr where
  /-- Opcode 1, format F3 (R90). -/
  | add (a b dst : Param)
  /-- Opcode 2, format F3 (R91). -/
  | multiply (a b dst : Param)
  /-- Opcode 3, format F1W (R95). -/
  | input (dst : Param)
  /-- Opcode 4, format F1R (R96). -/
  | output (v : Param)
  /-- Opcode 5, format F2 (R100). -/
  | jumpIfTrue (test target : Param)
  /-- Opcode 6, format F2 (R101). -/
  | jumpIfFalse (test target : Param)
  /-- Opcode 7, format F3 (R105). -/
  | lessThan (a b dst : Param)
  /-- Opcode 8, format F3 (R106). -/
  | equals (a b dst : Param)
  /-- Opcode 9, format F1R (R110). -/
  | adjustRelativeBase (a : Param)
  /-- Opcode 99, format F0 (R113). -/
  | halt
  deriving DecidableEq, Repr

end Sys2Proof
end

