-- ==== Sys2Proof/Machine/Dispatch.lean ====
section
/-! DEFINITION. The one match that gives every instruction its meaning (40_execution_cycle.md R80). -/

namespace Sys2Proof.Machine

/-- The stages of 40_execution_cycle.md R70 after decoding, for the instruction at `ip`: the advance check, input
availability, operand resolution and execution. Fetch, the word's decoding and the preconditions of a step are in
Machine/Fetch.lean and Machine/Step.lean. -/
def exec (i : Instr) (s : State) : Host.Outcome State Fault Refusal :=
  match i with
  | .add a b dst => Sys2Proof.Machine.execAdd a b dst s
  | .multiply a b dst => Sys2Proof.Machine.execMultiply a b dst s
  | .input dst => Sys2Proof.Machine.execInput dst s
  | .output v => Sys2Proof.Machine.execOutput v s
  | .jumpIfTrue test target => Sys2Proof.Machine.execJumpIfTrue test target s
  | .jumpIfFalse test target => Sys2Proof.Machine.execJumpIfFalse test target s
  | .lessThan a b dst => Sys2Proof.Machine.execLessThan a b dst s
  | .equals a b dst => Sys2Proof.Machine.execEquals a b dst s
  | .adjustRelativeBase a => Sys2Proof.Machine.execAdjustRelativeBase a s
  | .halt => Sys2Proof.Machine.execHalt s

end Sys2Proof.Machine
end

