-- ==== Sys2Proof/WellFormed.lean ====
section
/-! DEFINITION. Which instruction terms the encoding can express: a write parameter is never Immediate
(30_encoding.md R55, R60). Every other field admits every value. -/

namespace Sys2Proof

/-- The modes R55 allows on a write parameter: Position and Relative. -/
def Param.writable (p : Param) : Bool :=
  match p.mode with
  | .position => true
  | .immediate => false
  | .relative => true

/-- The instruction can be encoded: its write parameter, if it has one, is not Immediate (R60). -/
def Instr.wellFormed : Instr → Bool
  | .add _ _ dst => dst.writable
  | .multiply _ _ dst => dst.writable
  | .input dst => dst.writable
  | .output _ => true
  | .jumpIfTrue _ _ => true
  | .jumpIfFalse _ _ => true
  | .lessThan _ _ dst => dst.writable
  | .equals _ _ dst => dst.writable
  | .adjustRelativeBase _ => true
  | .halt => true

end Sys2Proof
end

