-- ==== Sys2Proof/Decode.lean ====
section
/-! DEFINITION. Decoding and encoding of instructions, by decimal digits (30_encoding.md R50 to R63, R69). The decoder is
a pure total function of the four cells an instruction can span; it refuses by one of the three decode faults. After it
stands the encoder, which gives the canonical word of R62. -/

namespace Sys2Proof

/-- The ten opcodes (R53). -/
inductive Opcode where
  | add | multiply | input | output | jumpIfTrue | jumpIfFalse | lessThan | equals | adjustRelativeBase | halt
  deriving DecidableEq, Repr

/-- The opcode map of R53: the two-digit value of each opcode. -/
def Opcode.number : Opcode → Nat
  | .add => 1
  | .multiply => 2
  | .input => 3
  | .output => 4
  | .jumpIfTrue => 5
  | .jumpIfFalse => 6
  | .lessThan => 7
  | .equals => 8
  | .adjustRelativeBase => 9
  | .halt => 99

/-- The opcode a two-digit value selects; the other ninety values select none (R53, R57). -/
def Opcode.ofNumber : Nat → Option Opcode
  | 1 => some .add
  | 2 => some .multiply
  | 3 => some .input
  | 4 => some .output
  | 5 => some .jumpIfTrue
  | 6 => some .jumpIfFalse
  | 7 => some .lessThan
  | 8 => some .equals
  | 9 => some .adjustRelativeBase
  | 99 => some .halt
  | _ => none

/-- `nparams(op)` of R54. -/
def Opcode.nparams : Opcode → Nat
  | .add | .multiply | .lessThan | .equals => 3
  | .jumpIfTrue | .jumpIfFalse => 2
  | .input | .output | .adjustRelativeBase => 1
  | .halt => 0

/-- `size(op) = 1 + nparams(op)`, the encoded size in cells (R54). -/
def Opcode.size (op : Opcode) : Nat := 1 + op.nparams

/-- `wparam(op)`, the number of the write parameter, if the opcode has one (R54). -/
def Opcode.wparam : Opcode → Option Nat
  | .add | .multiply | .lessThan | .equals => some 3
  | .input => some 1
  | .output | .jumpIfTrue | .jumpIfFalse | .adjustRelativeBase | .halt => none

/-- The opcode of an instruction. -/
def Instr.opcode : Instr → Opcode
  | .add _ _ _ => .add
  | .multiply _ _ _ => .multiply
  | .input _ => .input
  | .output _ => .output
  | .jumpIfTrue _ _ => .jumpIfTrue
  | .jumpIfFalse _ _ => .jumpIfFalse
  | .lessThan _ _ _ => .lessThan
  | .equals _ _ _ => .equals
  | .adjustRelativeBase _ => .adjustRelativeBase
  | .halt => .halt

/-- The encoded size of an instruction in cells: a function of the opcode alone (R54, R63). -/
def Instr.size (i : Instr) : Nat := i.opcode.size

/-- The parameters of an instruction in parameter order. -/
def Instr.params : Instr → List Param
  | .add a b dst => [a, b, dst]
  | .multiply a b dst => [a, b, dst]
  | .input dst => [dst]
  | .output v => [v]
  | .jumpIfTrue test target => [test, target]
  | .jumpIfFalse test target => [test, target]
  | .lessThan a b dst => [a, b, dst]
  | .equals a b dst => [a, b, dst]
  | .adjustRelativeBase a => [a]
  | .halt => []

/-- Why decoding refuses (R57 to R60); the number is the parameter's. The record the core latches adds the word and `ip`
(R140). -/
inductive DecodeFault where
  | unknownOpcode
  | invalidWriteTarget (k : Nat)
  | invalidMode (k : Nat)
  deriving DecidableEq, Repr

/-- `digit(n, i)`: the decimal digit of weight 10^i (R6). -/
def digit (n i : Nat) : Nat := n / 10 ^ i % 10

/-- `opcode(w) = w mod 100`, the low two decimal digits (R6, R51). -/
def opcodeDigits (n : Nat) : Nat := n % 100

/-- The mode a digit names; 3 to 9 name none (R55, R59). -/
def Mode.ofDigit : Nat → Option Mode
  | 0 => some .position
  | 1 => some .immediate
  | 2 => some .relative
  | _ => none

/-- The digit of a mode (R55). -/
def Mode.digit : Mode → Nat
  | .position => 0
  | .immediate => 1
  | .relative => 2

/-- The mode of parameter `k` of a word of value `n` (the loop body of R69): InvalidMode is tested before
InvalidWriteTarget. -/
def decodeMode (op : Opcode) (n k : Nat) : Except DecodeFault Mode :=
  match Mode.ofDigit (digit n (k + 1)) with
  | none => .error (.invalidMode k)
  | some m =>
    if op.wparam = some k ∧ m = .immediate then .error (.invalidWriteTarget k) else .ok m

/-- Parameter slot `k` of the three a word has room for: a slot the opcode does not use is not examined (R61). -/
def decodeSlot (op : Opcode) (n k : Nat) : Except DecodeFault Mode :=
  if k ≤ op.nparams then decodeMode op n k else .ok .position

/-- What the instruction word alone determines: the opcode and the modes of its parameters. A mode of a parameter the
opcode lacks is Position and unused. -/
structure Header where
  op : Opcode
  m1 : Mode
  m2 : Mode
  m3 : Mode
  deriving DecidableEq, Repr

/-- `DecodeWord(w)` of R69: a pure function of the word, with its order of checks. -/
def decodeWord (w : Word) : Except DecodeFault Header :=
  if w.toInt < 0 then .error .unknownOpcode
  else
    match Opcode.ofNumber (opcodeDigits w.toNat) with
    | none => .error .unknownOpcode
    | some op => do
      let m1 ← decodeSlot op w.toNat 1
      let m2 ← decodeSlot op w.toNat 2
      let m3 ← decodeSlot op w.toNat 3
      .ok ⟨op, m1, m2, m3⟩

/-- The four cells an instruction can span: the instruction word and three raw parameters (R50). -/
structure Cells where
  word : Word
  p1 : Word
  p2 : Word
  p3 : Word
  deriving DecidableEq, Repr

/-- The first four cells of a list; a cell the list lacks reads as 0, as a cell beyond the extent does (R76). -/
def Cells.ofList : List Word → Cells
  | [] => ⟨0, 0, 0, 0⟩
  | [w] => ⟨w, 0, 0, 0⟩
  | [w, p] => ⟨w, p, 0, 0⟩
  | [w, p, q] => ⟨w, p, q, 0⟩
  | w :: p :: q :: r :: _ => ⟨w, p, q, r⟩

/-- The instruction of a decoded word and its raw parameters (R52, R53). -/
def Header.instr (h : Header) (c : Cells) : Instr :=
  match h.op with
  | .add => .add ⟨h.m1, c.p1⟩ ⟨h.m2, c.p2⟩ ⟨h.m3, c.p3⟩
  | .multiply => .multiply ⟨h.m1, c.p1⟩ ⟨h.m2, c.p2⟩ ⟨h.m3, c.p3⟩
  | .input => .input ⟨h.m1, c.p1⟩
  | .output => .output ⟨h.m1, c.p1⟩
  | .jumpIfTrue => .jumpIfTrue ⟨h.m1, c.p1⟩ ⟨h.m2, c.p2⟩
  | .jumpIfFalse => .jumpIfFalse ⟨h.m1, c.p1⟩ ⟨h.m2, c.p2⟩
  | .lessThan => .lessThan ⟨h.m1, c.p1⟩ ⟨h.m2, c.p2⟩ ⟨h.m3, c.p3⟩
  | .equals => .equals ⟨h.m1, c.p1⟩ ⟨h.m2, c.p2⟩ ⟨h.m3, c.p3⟩
  | .adjustRelativeBase => .adjustRelativeBase ⟨h.m1, c.p1⟩
  | .halt => .halt

/-- The decoder: the instruction that begins with these cells, or the decode fault (R69). -/
def decode (c : Cells) : Except DecodeFault Instr :=
  match decodeWord c.word with
  | .error f => .error f
  | .ok h => .ok (h.instr c)

/-- The value of the canonical word of an opcode and its parameters' modes: `opcode + 100*m1 + 1000*m2 + 10000*m3`,
unused digits 0 (R62). -/
def canonicalWord (op : Opcode) (ps : List Param) : Nat :=
  match ps with
  | [] => op.number
  | [p] => op.number + 100 * p.mode.digit
  | [p, q] => op.number + 100 * p.mode.digit + 1000 * q.mode.digit
  | p :: q :: r :: _ => op.number + 100 * p.mode.digit + 1000 * q.mode.digit + 10000 * r.mode.digit

/-- The canonical word of an instruction, as a number (R62). -/
def Instr.wordValue (i : Instr) : Nat := canonicalWord i.opcode i.params

/-- The encoder: the canonical instruction word followed by the raw parameters (R50, R62). -/
def Instr.encode (i : Instr) : List Word := BitVec.ofNat 64 i.wordValue :: i.params.map Param.raw

/-- The four cells held in the low `nbits` bits of `w`: bit 0 is the least significant bit of the first cell and each
later cell's bits count on from it. DESIGN CHOICE (log 11): the spec numbers no bits. -/
def cellsOfBits (nbits w : Nat) : Cells :=
  let v := w % 2 ^ nbits
  ⟨BitVec.ofNat 64 v, BitVec.ofNat 64 (v / 2 ^ 64), BitVec.ofNat 64 (v / 2 ^ 128), BitVec.ofNat 64 (v / 2 ^ 192)⟩

/-- The instruction the decoder reads from the cells whose bits are `w` (the host's question about an opcode-table row). -/
def decodeTableWord (nbits w : Nat) : Option Instr :=
  match decode (cellsOfBits nbits w) with
  | .error _ => none
  | .ok i => some i

end Sys2Proof
end

