-- ==== Sys2Proof/Machine/Fetch.lean ====
section
/-! DEFINITION. The fetch and decode stages of a step (40_execution_cycle.md R70, R71, R72, R76). -/

namespace Sys2Proof.Machine

/-- The four cells from address `a` up; a cell beyond the extent reads as 0 (R76). Reads have no effect (R33, R37), so
reading a cell that the instruction turns out not to have changes nothing (log 8). -/
def State.cellsAt (s : State) (a : Nat) : Cells :=
  ⟨s.memRead a, s.memRead (a + 1), s.memRead (a + 2), s.memRead (a + 3)⟩

/-- The record latched for a decode fault: the whole word and `ip` are added (R140). -/
def faultOfDecode (w ip : Word) : DecodeFault → FaultRecord
  | .unknownOpcode => .unknownOpcode w ip
  | .invalidWriteTarget k => .invalidWriteTarget w ip k
  | .invalidMode k => .invalidMode w ip k

/-- What fetch and decode find at `ip`. -/
inductive Fetched where
  /-- A fetch or decode fault. -/
  | raised (f : FaultRecord)
  /-- `ip` is at or beyond the extent. -/
  | pastEnd
  /-- An instruction. -/
  | decoded (i : Instr)
  deriving DecidableEq, Repr

/-- Stages F and D of R70: the address check of `ip`, the implicit halt, then decoding of the word and its raw
parameters, in that order (R146). -/
def State.fetch (s : State) : Fetched :=
  match s.checkAddr s.ip.toInt with
  | .error f => .raised f
  | .ok a =>
    if s.len ≤ a then .pastEnd
    else
      match decode (s.cellsAt a) with
      | .error e => .raised (faultOfDecode (s.memRead a) s.ip e)
      | .ok i => .decoded i

/-- The four cells stored at addresses `a` to `a+3`, where they are in the address space. -/
def State.placeCells (s : State) (a : Nat) (c : Cells) : State :=
  (((s.memWrite a c.word).memWrite (a + 1) c.p1).memWrite (a + 2) c.p2).memWrite (a + 3) c.p3

end Sys2Proof.Machine
end

