-- ==== Sys2Proof/Machine/Step.lean ====
section
/-! DEFINITION. One step of the core, `Step()` of 40_execution_cycle.md R70, inside a run. -/

namespace Sys2Proof.Machine

/-- One step of the core. R70's precondition is `fault = None` and `status = Running`; in a state that does not meet it
the core executes nothing: with a latched fault the step reports the record (R16, R85; log 4), in WaitingForInput and
Halted nothing changes (R157; log 3). The host's `run` is what sets `status` back to Running (Machine/HostOps.lean). -/
def step (s : State) : Host.Outcome State Fault Refusal :=
  match s.fault with
  | some r => .fault (.latched r)
  | none =>
    match s.status with
    | .halted => .next s
    | .waitingForInput => .next s
    | .running =>
      match s.fetch with
      | .raised f => .next (s.raise f)
      | .pastEnd => implicitHalt s
      | .decoded i => exec i s

/-- `s` with the instruction whose bits are `w` stored where `step` fetches next, in a core that is running with no
fault latched (log 10). Only the four cells, the extent they need, `status` and `fault` are set. It serves an `ip` in
0 .. MAXADDR-3. -/
def State.withFetchWord (s : State) (nbits w : Nat) : State :=
  { s.placeCells s.ip.toNat (cellsOfBits nbits w) with status := .running, fault := none }

end Sys2Proof.Machine
end

