-- ==== Sys2Proof/Machine/HostOps.lean ====
section
/-! DEFINITION. The host's nine transactions (47_host_operations.md), the run loop (40_execution_cycle.md R85), and the
two agents together: whose move it is, as plain data. None of this is an instruction; the core's own moves are `step`. -/

namespace Sys2Proof.Machine

/-- `load(program, initialInput)` of R120, the machine's only reset (R24, R160). -/
def load (program initialInput : List Word) : State where
  mem := Memory.ofCells 0 program
  len := program.length
  ip := Config.entryPoint
  rb := 0
  status := .running
  fault := none
  iq := initialInput
  ob := []

/-- `addInput(vs)` of R122: the values are pushed in order; a single value is a sequence of one. -/
def addInput (vs : List Word) (s : State) : State := { s with iq := s.iq ++ vs }

/-- `readOutput()` of R123: the whole buffer, oldest first, and the state with the buffer empty. -/
def readOutput (s : State) : List Word × State := (s.ob, { s with ob := [] })

/-- `lastOutput` of R124: the newest element of the buffer; `none` is the failure NoOutputProduced. -/
def lastOutput (s : State) : Option Word := s.ob.getLast?

/-- `fullOutput` of R125. -/
def fullOutput (s : State) : List Word := s.ob

/-- `poke(address, value)` of R126; `none` is the failure InvalidAddress, which changes nothing and latches nothing. -/
def poke (a : Int) (v : Word) (s : State) : Option State :=
  if validAddr a then some (s.memWrite a.toNat v) else none

/-- `status` of R127. -/
def readStatus (s : State) : Status := s.status

/-- `memory` of R128: the cells 0 .. len-1. -/
def memorySnapshot (s : State) : List Word := (List.range s.len).map s.memRead

/-- The fault latch as the further read-only observation R127 asks a model for. -/
def readFault (s : State) : Option FaultRecord := s.fault

/-- How a run ends (R82, R121). -/
inductive RunEnd where
  | halted
  | blocked
  | faulted (r : FaultRecord)
  deriving DecidableEq, Repr

/-- The entry of `run()` in R85: it returns at once in a faulted or halted core, else it enters the loop with `status`
Running. -/
def beginRun (s : State) : RunEnd ⊕ State :=
  match s.fault with
  | some r => .inl (.faulted r)
  | none =>
    match s.status with
    | .halted => .inl .halted
    | .running => .inr (s.setStatus .running)
    | .waitingForInput => .inr (s.setStatus .running)

/-- Whether a step that left this state ended the run, and how (R82, R85). `none`: the loop continues. -/
def runEnd (s : State) : Option RunEnd :=
  match s.fault with
  | some r => some (.faulted r)
  | none =>
    match s.status with
    | .halted => some .halted
    | .waitingForInput => some .blocked
    | .running => none

/-- The loop of R85 under an executor's budget of `fuel` steps (FUEL of R4, R86): the end of the run, if it came, and the
state. `none` says only that the budget ran out; the machine itself has no bound. -/
def runLoop : Nat → State → Option RunEnd × State
  | 0, s => (none, s)
  | fuel + 1, s =>
    match step s with
    | .next t =>
      match runEnd t with
      | some e => (some e, t)
      | none => runLoop fuel t
    | .fault (.latched r) => (some (.faulted r), s)
    | .refused _ => (none, s)

/-- `run()` of R85, R121 under a step budget. -/
def runFor (fuel : Nat) (s : State) : Option RunEnd × State :=
  match beginRun s with
  | .inl e => (some e, s)
  | .inr t => runLoop fuel t

/-- Whose move it is: before the first load no state is defined (R160); between runs the host acts; inside a run only
the core does (R41, R129). -/
inductive Phase where
  | unloaded
  | idle (s : State)
  | inRun (s : State)
  deriving DecidableEq, Repr

/-- The host's transactions (R120 to R128), and the observation of the fault latch (R127). -/
inductive HostOp where
  | load (program initialInput : List Word)
  | run
  | addInput (vs : List Word)
  | readOutput
  | lastOutput
  | fullOutput
  | poke (a : Int) (v : Word)
  | status
  | memory
  | fault
  deriving DecidableEq, Repr

/-- What a transaction answers to the host. -/
inductive Answer where
  /-- Done, with nothing to report. -/
  | done
  /-- `run` has entered the loop; its result comes when the core's moves end it. -/
  | started
  /-- The run has returned. -/
  | ended (e : RunEnd)
  | value (v : Word)
  | values (vs : List Word)
  | status (v : Status)
  | fault (r : Option FaultRecord)
  /-- `lastOutput` on an empty buffer (R124). -/
  | noOutputProduced
  /-- `poke` at an address outside 0 .. MAXADDR (R126). -/
  | invalidAddress (a : Int)
  deriving DecidableEq, Repr

/-- Why a move of an agent has no meaning. -/
inductive MoveRefusal where
  /-- A transaction other than `load` before the first load (R160, 93 U10). Safe. -/
  | notLoaded
  /-- A transaction while a run is in progress (R41, 93 U9). Safe. -/
  | runInProgress
  /-- A core move with no run in progress (R85). Safe. -/
  | noRunInProgress
  /-- A program with more cells than there are addresses (R17, R47, 93 U8). Safe. -/
  | programTooLong
  deriving DecidableEq, Repr

/-- The load transaction in any phase outside a run (R120, R160). -/
def loadMove (program initialInput : List Word) : Except MoveRefusal (Answer × Phase) :=
  if program.length ≤ Config.maxLen then .ok (.done, .idle (load program initialInput)) else .error .programTooLong

/-- A transaction on a loaded core between runs (R129). -/
def idleMove (op : HostOp) (s : State) : Except MoveRefusal (Answer × Phase) :=
  match op with
  | .load program initialInput => loadMove program initialInput
  | .run =>
    match beginRun s with
    | .inl e => .ok (.ended e, .idle s)
    | .inr t => .ok (.started, .inRun t)
  | .addInput vs => .ok (.done, .idle (addInput vs s))
  | .readOutput => .ok (.values (readOutput s).1, .idle (readOutput s).2)
  | .lastOutput =>
    match lastOutput s with
    | some v => .ok (.value v, .idle s)
    | none => .ok (.noOutputProduced, .idle s)
  | .fullOutput => .ok (.values (fullOutput s), .idle s)
  | .poke a v =>
    match poke a v s with
    | some t => .ok (.done, .idle t)
    | none => .ok (.invalidAddress a, .idle s)
  | .status => .ok (.status (readStatus s), .idle s)
  | .memory => .ok (.values (memorySnapshot s), .idle s)
  | .fault => .ok (.fault (readFault s), .idle s)

/-- The host's move (R129, R131). -/
def hostMove (op : HostOp) : Phase → Except MoveRefusal (Answer × Phase)
  | .unloaded =>
    match op with
    | .load program initialInput => loadMove program initialInput
    | _ => .error .notLoaded
  | .idle s => idleMove op s
  | .inRun _ => .error .runInProgress

/-- The core's move: one step of the run in progress, and the run's return where the step ends it (R85). The host's
answer is `none` while the run goes on. -/
def coreMove : Phase → Except MoveRefusal (Option Answer × Phase)
  | .unloaded => .error .notLoaded
  | .idle _ => .error .noRunInProgress
  | .inRun s =>
    match step s with
    | .next t =>
      match runEnd t with
      | some e => .ok (some (.ended e), .idle t)
      | none => .ok (none, .inRun t)
    | .fault (.latched r) => .ok (some (.ended (.faulted r)), .idle s)
    | .refused _ => .error .noRunInProgress

end Sys2Proof.Machine
end

