-- ==== Sys2Proof/Safety.lean ====
section
/-! DEFINITION. What holds of every state of a core that has been loaded: the invariants the spec states for its state
(10_state.md R16, R17, R18), and the canonical form of the model's memory. -/

namespace Sys2Proof

/-- Every cell at or beyond the extent is 0 (R17): the list holds no entry there. -/
abbrev Machine.State.withinExtent (s : Machine.State) : Prop := ∀ c ∈ s.mem, c.1 < s.len

/-- A latched fault leaves `status` Running (R16). -/
abbrev Machine.State.faultRunning (s : Machine.State) : Prop := s.fault.isSome → s.status = .running

/-- The invariant of the machine: canonical memory within the extent, an extent of at most 2^63 (R17), and a latched fault
only in status Running (R16). -/
structure Machine.State.Sound (s : Machine.State) : Prop where
  memory : s.mem.wf
  extent : s.withinExtent
  bound : s.len ≤ Config.maxLen
  latch : s.faultRunning

/-- The precondition of a step: no fault latched and status Running (R70). -/
def Machine.State.Active (s : Machine.State) : Prop := s.fault = none ∧ s.status = .running

/-- `i` is the instruction at `ip`: the address is in the space and below the extent, and the cells there decode to `i`
(R70, R76). -/
def Machine.State.Fetches (s : Machine.State) (i : Instr) : Prop :=
  0 ≤ s.ip.toInt ∧ s.ip.toNat < s.len ∧ decode (s.cellsAt s.ip.toNat) = .ok i

/-- The instruction word at `ip` is fetched: the state is active and `ip` is in the space and below the extent. -/
def Machine.State.FetchesWord (s : Machine.State) : Prop :=
  s.Active ∧ 0 ≤ s.ip.toInt ∧ s.ip.toNat < s.len

/-- The instruction word at `ip`. -/
def Machine.State.word (s : Machine.State) : Word := s.memRead s.ip.toNat

/-- The invariant of the two agents: the state is sound, and inside a run the core is active (R85). -/
def Machine.Phase.Sound : Machine.Phase → Prop
  | .unloaded => True
  | .idle s => s.Sound
  | .inRun s => s.Sound ∧ s.Active

end Sys2Proof
end

