-- ==== Sys2Proof/Certificates/Slice0/Obligations.lean ====
section
/-! DEFINITION. The statements about the machine, from the numbered rules of spec/. Each is listed in OBLIGATIONS.json.
A premise such as `s.mem.wf` or `s.Sound` is an invariant of the model: `ResetAndLoadAreSound`, `StepKeepsSound` and
`MovesKeepSound` state that it holds at every load and is kept. -/

open Sys2Proof Sys2Proof.Machine

/-! ### Encoding and decoding -/

/-- Words of every family, written out from the encodings of R53 and the examples of R61, decode to their instruction. -/
def Obligations.SpecWordsDecode : Prop :=
  decode ⟨1, 5, 6, 7⟩ = .ok (.add ⟨.position, 5⟩ ⟨.position, 6⟩ ⟨.position, 7⟩) ∧
  decode ⟨21101, 3, 4, 5⟩ = .ok (.add ⟨.immediate, 3⟩ ⟨.immediate, 4⟩ ⟨.relative, 5⟩) ∧
  decode ⟨1002, 4, 3, 4⟩ = .ok (.multiply ⟨.position, 4⟩ ⟨.immediate, 3⟩ ⟨.position, 4⟩) ∧
  decode ⟨203, 1, 99, 0⟩ = .ok (.input ⟨.relative, 1⟩) ∧
  decode ⟨99204, 2, 0, 0⟩ = .ok (.output ⟨.relative, 2⟩) ∧
  decode ⟨2105, 1, 1, 99⟩ = .ok (.jumpIfTrue ⟨.immediate, 1⟩ ⟨.relative, 1⟩) ∧
  decode ⟨1006, 101, 0, 99⟩ = .ok (.jumpIfFalse ⟨.position, 101⟩ ⟨.immediate, 0⟩) ∧
  decode ⟨1107, 3, 5, 5⟩ = .ok (.lessThan ⟨.immediate, 3⟩ ⟨.immediate, 5⟩ ⟨.position, 5⟩) ∧
  decode ⟨108, 8, 9, 5⟩ = .ok (.equals ⟨.immediate, 8⟩ ⟨.position, 9⟩ ⟨.position, 5⟩) ∧
  decode ⟨109, -3, 0, 0⟩ = .ok (.adjustRelativeBase ⟨.immediate, -3⟩) ∧
  decode ⟨12345699, 1, 2, 3⟩ = .ok .halt

/-- Decode and encode agree: every well-formed instruction, with every operand, is what its encoding decodes to, whatever
cells follow; and the encoding has the instruction's size. -/
def Obligations.DecodeInvertsEncode : Prop :=
  ∀ i : Instr, i.wellFormed = true →
    i.encode.length = i.size ∧ ∀ rest : List Word, decode (Cells.ofList (i.encode ++ rest)) = .ok i

/-- The other direction: what is decoded is well formed, its parameters are the raw cells, and its canonical word is what
remains of the word when the digits the opcode does not use are dropped (R61, R62). -/
def Obligations.DecodedIsCanonical : Prop :=
  ∀ (c : Cells) (i : Instr), decode c = .ok i →
    i.wellFormed = true ∧ 0 ≤ c.word.toInt ∧
    i.params.map Param.raw = [c.p1, c.p2, c.p3].take i.opcode.nparams ∧
    c.word.toNat % 10 ^ (i.opcode.nparams + 2) = i.wordValue

/-- R61: two non-negative words that agree in the two opcode digits and in the mode digits of the parameters the opcode
has decode alike, whatever their other digits; with the rule's own examples. -/
def Obligations.UnusedDigitsIgnored : Prop :=
  (∀ (w w' p q r : Word) (op : Opcode), 0 ≤ w.toInt → 0 ≤ w'.toInt → opcodeDigits w.toNat = op.number →
    w.toNat % 10 ^ (op.nparams + 2) = w'.toNat % 10 ^ (op.nparams + 2) →
    decode ⟨w, p, q, r⟩ = decode ⟨w', p, q, r⟩) ∧
  (∀ p q r : Word, decode ⟨1099, p, q, r⟩ = .ok .halt ∧ decode ⟨12345699, p, q, r⟩ = .ok .halt ∧
    decode ⟨204, p, q, r⟩ = .ok (.output ⟨.relative, p⟩) ∧ decode ⟨99204, p, q, r⟩ = .ok (.output ⟨.relative, p⟩) ∧
    decode ⟨100004, p, q, r⟩ = .ok (.output ⟨.position, p⟩) ∧
    decode ⟨9223372036854775807, p, q, r⟩ = .error (.invalidMode 1))

/-! ### Decode faults -/

/-- R57, R58: a negative word, or one whose low two digits are 0 or 10 to 98, faults with the whole word and `ip`, and
nothing else changes. -/
def Obligations.UnknownOpcodeFaults : Prop :=
  ∀ s : State, s.FetchesWord →
    (s.word.toInt < 0 ∨ s.word.toNat % 100 = 0 ∨ (10 ≤ s.word.toNat % 100 ∧ s.word.toNat % 100 ≤ 98)) →
    step s = .next { s with fault := some (.unknownOpcode s.word s.ip) }

/-- R59: a mode digit 3 to 9 on a parameter the opcode has faults for the lowest such parameter. -/
def Obligations.InvalidModeFaults : Prop :=
  ∀ (s : State) (op : Opcode) (k : Nat), s.FetchesWord → 0 ≤ s.word.toInt → s.word.toNat % 100 = op.number →
    1 ≤ k → k ≤ op.nparams → 3 ≤ digit s.word.toNat (k + 1) →
    (∀ j, 1 ≤ j → j < k → digit s.word.toNat (j + 1) < 3) →
    step s = .next { s with fault := some (.invalidMode s.word s.ip k) }

/-- R60: mode digit 1 on the write parameter faults (the read parameters before it being of a defined mode). -/
def Obligations.InvalidWriteTargetFaults : Prop :=
  ∀ (s : State) (op : Opcode) (k : Nat), s.FetchesWord → 0 ≤ s.word.toInt → s.word.toNat % 100 = op.number →
    op.wparam = some k → digit s.word.toNat (k + 1) = 1 →
    (∀ j, 1 ≤ j → j < k → digit s.word.toNat (j + 1) < 3) →
    step s = .next { s with fault := some (.invalidWriteTarget s.word s.ip k) }

/-! ### The step -/

/-- A step runs the decoded instruction: when the cells at `ip` decode to `i`, the step is `exec i`, with nothing around
it (R70, R76). -/
def Obligations.StepRunsDecoded : Prop :=
  ∀ (s : State) (i : Instr), s.fault = none → s.status = .running → 0 ≤ s.ip.toInt → s.ip.toNat < s.len →
    decode ⟨s.mem.read s.ip.toNat, s.mem.read (s.ip.toNat + 1), s.mem.read (s.ip.toNat + 2),
      s.mem.read (s.ip.toNat + 3)⟩ = .ok i →
    step s = exec i s

/-- R71: a negative `ip` faults at fetch. So a taken jump to a negative target completes and loads it, and the step after
it faults, with `ip` still holding it. -/
def Obligations.NegativeIpFaults : Prop :=
  (∀ s : State, s.Active → s.ip.toInt < 0 →
    step s = .next { s with fault := some (.invalidAddress s.ip.toInt s.ip) }) ∧
  (∀ (s : State) (test target : Param) (v1 v2 : Word), s.Active → s.ip.toInt + 3 ≤ Config.maxAddr →
    s.readValue test = .ok v1 → s.readValue target = .ok v2 → v2.toInt < 0 →
    (v1 ≠ 0 → exec (.jumpIfTrue test target) s = .next { s with ip := v2 }) ∧
    (v1 = 0 → exec (.jumpIfFalse test target) s = .next { s with ip := v2 }) ∧
    step { s with ip := v2 } = .next { s with ip := v2, fault := some (.invalidAddress v2.toInt v2) })

/-- R72: `ip` at or beyond the extent halts, whatever the cell there would decode to, and changes nothing else. -/
def Obligations.ImplicitHaltAtExtent : Prop :=
  ∀ s : State, s.Active → 0 ≤ s.ip.toInt → s.len ≤ s.ip.toNat →
    step s = .next { s with status := .halted }

/-- R74: every instruction but Halt faults when `ip + size` is above MAXADDR, Halt never does, and an advance that passes
the check does not wrap. -/
def Obligations.AdvanceOutOfRangeFaults : Prop :=
  (∀ (i : Instr) (s : State), s.fault = none → i ≠ .halt → Config.maxAddr < s.ip.toInt + i.size →
    exec i s = .next { s with fault := some (.invalidAddress (s.ip.toInt + i.size) s.ip) }) ∧
  (∀ s : State, exec .halt s = .next { s with status := .halted }) ∧
  (∀ (s : State) (n : Nat), 0 ≤ s.ip.toInt → s.ip.toInt + n ≤ Config.maxAddr →
    (s.advance n).ip.toInt = s.ip.toInt + n)

/-- R82: from a state that meets a step's precondition the step ends in a next state in exactly one of four ways (the
four differ in `fault` and `status`): an instruction other than Halt was executed and the core is still Running; Halt or
the implicit halt; an Input that found the queue empty; a fault. Only the first changes anything but `status` and
`fault`. -/
def Obligations.StepEndsInFourWays : Prop :=
  ∀ s : State, s.Active → ∃ t, step s = .next t ∧
    ((t.fault = none ∧ t.status = .running ∧ ∃ i, i ≠ .halt ∧ s.Fetches i ∧ exec i s = .next t) ∨
      ((s.Fetches .halt ∨ (0 ≤ s.ip.toInt ∧ s.len ≤ s.ip.toNat)) ∧ t = { s with status := .halted }) ∨
      (s.iq = [] ∧ (∃ dst, s.Fetches (.input dst)) ∧ t = { s with status := .waitingForInput }) ∨
      ∃ r, t = { s with fault := some r })

/-- R141: a step that latches a fault changes nothing else, leaves `status` Running, and ends the run with that record;
the record is one that R140 lists, with the `ip` of the step, and the word there or an address outside the space. -/
def Obligations.FaultsArePrecise : Prop :=
  ∀ (s t : State) (r : FaultRecord), s.fault = none → step s = .next t → t.fault = some r →
    t = { s with fault := some r } ∧ t.status = .running ∧ runEnd t = some (.faulted r) ∧
    (r = .unknownOpcode s.word s.ip ∨
      (∃ a, (a < 0 ∨ 2 ^ 63 - 1 < a) ∧ r = .invalidAddress a s.ip) ∨
      (∃ k, r = .invalidWriteTarget s.word s.ip k) ∨ ∃ k, r = .invalidMode s.word s.ip k)

/-- The model's choice (log 3, log 4): outside a step's precondition the core executes nothing; with a latched fault the
step reports the record. -/
def Obligations.StoppedCoreExecutesNothing : Prop :=
  (∀ (s : State) (r : FaultRecord), s.fault = some r → step s = .fault (.latched r)) ∧
  (∀ s : State, s.fault = none → s.status ≠ .running → step s = .next s)

/-! ### Addresses and operands -/

/-- R78: the value of a read parameter in each mode; Relative sums are exact and never wrap. -/
def Obligations.ReadValueByMode : Prop :=
  ∀ (s : State) (p : Word),
    s.readValue ⟨.immediate, p⟩ = .ok p ∧
    (0 ≤ p.toInt → s.readValue ⟨.position, p⟩ = .ok (s.memRead p.toNat)) ∧
    (p.toInt < 0 → s.readValue ⟨.position, p⟩ = .error (.invalidAddress p.toInt s.ip)) ∧
    (0 ≤ s.rb.toInt + p.toInt → s.rb.toInt + p.toInt ≤ 2 ^ 63 - 1 →
      s.readValue ⟨.relative, p⟩ = .ok (s.memRead (s.rb.toInt + p.toInt).toNat)) ∧
    (s.rb.toInt + p.toInt < 0 ∨ 2 ^ 63 - 1 < s.rb.toInt + p.toInt →
      s.readValue ⟨.relative, p⟩ = .error (.invalidAddress (s.rb.toInt + p.toInt) s.ip))

/-- R79: the destination of a write parameter in Position and Relative mode. The last clause, an Immediate write parameter,
is the model's choice (log 7): the spec says that mode cannot reach this point (R79), because decoding refuses it (R60); on
a term no decoder gives, the model answers InvalidWriteTarget. -/
def Obligations.WriteAddrByMode : Prop :=
  ∀ (s : State) (k : Nat) (p : Word),
    (0 ≤ p.toInt → s.writeAddr k ⟨.position, p⟩ = .ok p.toNat) ∧
    (p.toInt < 0 → s.writeAddr k ⟨.position, p⟩ = .error (.invalidAddress p.toInt s.ip)) ∧
    (0 ≤ s.rb.toInt + p.toInt → s.rb.toInt + p.toInt ≤ 2 ^ 63 - 1 →
      s.writeAddr k ⟨.relative, p⟩ = .ok (s.rb.toInt + p.toInt).toNat) ∧
    (s.rb.toInt + p.toInt < 0 ∨ 2 ^ 63 - 1 < s.rb.toInt + p.toInt →
      s.writeAddr k ⟨.relative, p⟩ = .error (.invalidAddress (s.rb.toInt + p.toInt) s.ip)) ∧
    s.writeAddr k ⟨.immediate, p⟩ = .error (.invalidWriteTarget (s.memRead s.ip.toNat) s.ip k)

/-- The first operand in parameter order that does not resolve is the one whose fault is taken, and nothing else happens
(R146 item 7, R141): the four storing three-operand instructions. -/
def Obligations.ComputeOperandFaults : Prop :=
  ∀ (s : State) (a b dst : Param) (f : FaultRecord), s.fault = none → s.ip.toInt + 4 ≤ Config.maxAddr →
    (s.readValue a = .error f ∨ (∃ v, s.readValue a = .ok v ∧ s.readValue b = .error f) ∨
      (∃ v w, s.readValue a = .ok v ∧ s.readValue b = .ok w ∧ s.writeAddr 3 dst = .error f)) →
    ∀ i ∈ [Instr.add a b dst, .multiply a b dst, .lessThan a b dst, .equals a b dst],
      exec i s = .next { s with fault := some f }

/-- The same for the jumps: the target is resolved, and can fault, whether or not the jump is taken (D14). -/
def Obligations.JumpOperandFaults : Prop :=
  ∀ (s : State) (test target : Param) (f : FaultRecord), s.fault = none → s.ip.toInt + 3 ≤ Config.maxAddr →
    (s.readValue test = .error f ∨ (∃ v, s.readValue test = .ok v ∧ s.readValue target = .error f)) →
    exec (.jumpIfTrue test target) s = .next { s with fault := some f } ∧
    exec (.jumpIfFalse test target) s = .next { s with fault := some f }

/-- The same for the instructions of one parameter; a faulting Input pops nothing. -/
def Obligations.SingleOperandFaults : Prop :=
  (∀ (s : State) (p : Param) (f : FaultRecord), s.fault = none → s.ip.toInt + 2 ≤ Config.maxAddr →
    s.readValue p = .error f →
    exec (.output p) s = .next { s with fault := some f } ∧
    exec (.adjustRelativeBase p) s = .next { s with fault := some f }) ∧
  (∀ (s : State) (dst : Param) (f : FaultRecord), s.fault = none → s.ip.toInt + 2 ≤ Config.maxAddr →
    s.iq ≠ [] → s.writeAddr 1 dst = .error f →
    exec (.input dst) s = .next { s with fault := some f })

/-! ### The instructions: completion and result -/

/-- Add (R90). -/
def Obligations.AddResult : Prop :=
  ∀ (s : State) (a b dst : Param) (v1 v2 : Word) (d : Nat), s.ip.toInt + 4 ≤ Config.maxAddr →
    s.readValue a = .ok v1 → s.readValue b = .ok v2 → s.writeAddr 3 dst = .ok d →
    exec (.add a b dst) s = .next
      { s with
        mem := s.mem.write d (BitVec.ofInt 64 (v1.toInt + v2.toInt))
        len := if s.len ≤ d then d + 1 else s.len
        ip := s.ip + 4 }

/-- Multiply (R91). -/
def Obligations.MultiplyResult : Prop :=
  ∀ (s : State) (a b dst : Param) (v1 v2 : Word) (d : Nat), s.ip.toInt + 4 ≤ Config.maxAddr →
    s.readValue a = .ok v1 → s.readValue b = .ok v2 → s.writeAddr 3 dst = .ok d →
    exec (.multiply a b dst) s = .next
      { s with
        mem := s.mem.write d (BitVec.ofInt 64 (v1.toInt * v2.toInt))
        len := if s.len ≤ d then d + 1 else s.len
        ip := s.ip + 4 }

/-- LessThan (R105). -/
def Obligations.LessThanResult : Prop :=
  ∀ (s : State) (a b dst : Param) (v1 v2 : Word) (d : Nat), s.ip.toInt + 4 ≤ Config.maxAddr →
    s.readValue a = .ok v1 → s.readValue b = .ok v2 → s.writeAddr 3 dst = .ok d →
    exec (.lessThan a b dst) s = .next
      { s with
        mem := s.mem.write d (if v1.toInt < v2.toInt then 1 else 0)
        len := if s.len ≤ d then d + 1 else s.len
        ip := s.ip + 4 }

/-- Equals (R106). -/
def Obligations.EqualsResult : Prop :=
  ∀ (s : State) (a b dst : Param) (v1 v2 : Word) (d : Nat), s.ip.toInt + 4 ≤ Config.maxAddr →
    s.readValue a = .ok v1 → s.readValue b = .ok v2 → s.writeAddr 3 dst = .ok d →
    exec (.equals a b dst) s = .next
      { s with
        mem := s.mem.write d (if v1 = v2 then 1 else 0)
        len := if s.len ≤ d then d + 1 else s.len
        ip := s.ip + 4 }

/-- Input with a value queued (R95): the oldest value is popped and stored. -/
def Obligations.InputTakesOldest : Prop :=
  ∀ (s : State) (dst : Param) (x : Word) (rest : List Word) (d : Nat), s.ip.toInt + 2 ≤ Config.maxAddr →
    s.iq = x :: rest → s.writeAddr 1 dst = .ok d →
    exec (.input dst) s = .next
      { s with
        mem := s.mem.write d x
        len := if s.len ≤ d then d + 1 else s.len
        ip := s.ip + 2
        iq := rest }

/-- Input with an empty queue blocks (R77): only `status` changes, whatever the destination; and no other instruction
makes a core wait. -/
def Obligations.EmptyQueueBlocks : Prop :=
  (∀ (s : State) (dst : Param), s.ip.toInt + 2 ≤ Config.maxAddr → s.iq = [] →
    exec (.input dst) s = .next { s with status := .waitingForInput }) ∧
  (∀ (i : Instr) (s t : State), s.status = .running → exec i s = .next t → t.status = .waitingForInput →
    s.iq = [] ∧ ∃ dst, i = .input dst)

/-- Output (R96). -/
def Obligations.OutputResult : Prop :=
  ∀ (s : State) (p : Param) (v : Word), s.ip.toInt + 2 ≤ Config.maxAddr → s.readValue p = .ok v →
    exec (.output p) s = .next { s with ob := s.ob ++ [v], ip := s.ip + 2 }

/-- JumpIfTrue (R100), taken and not taken; the target is any value, unchecked (R102). -/
def Obligations.JumpIfTrueResult : Prop :=
  ∀ (s : State) (test target : Param) (v1 v2 : Word), s.ip.toInt + 3 ≤ Config.maxAddr →
    s.readValue test = .ok v1 → s.readValue target = .ok v2 →
    exec (.jumpIfTrue test target) s = .next { s with ip := if v1 ≠ 0 then v2 else s.ip + 3 }

/-- JumpIfFalse (R101), taken and not taken. -/
def Obligations.JumpIfFalseResult : Prop :=
  ∀ (s : State) (test target : Param) (v1 v2 : Word), s.ip.toInt + 3 ≤ Config.maxAddr →
    s.readValue test = .ok v1 → s.readValue target = .ok v2 →
    exec (.jumpIfFalse test target) s = .next { s with ip := if v1 = 0 then v2 else s.ip + 3 }

/-- AdjustRelativeBase (R110): the operand is read with the old `rb`, the sum wraps. -/
def Obligations.AdjustRelativeBaseResult : Prop :=
  ∀ (s : State) (p : Param) (v : Word), s.ip.toInt + 2 ≤ Config.maxAddr → s.readValue p = .ok v →
    exec (.adjustRelativeBase p) s = .next
      { s with rb := BitVec.ofInt 64 (s.rb.toInt + v.toInt), ip := s.ip + 2 }

/-- Halt (R113): only `status` is written, in every state. -/
def Obligations.HaltResult : Prop :=
  ∀ s : State, exec .halt s = .next { s with status := .halted }

/-- R5: wrapping gives the 64-bit number congruent to the exact result. -/
def Obligations.WrapIsModular : Prop :=
  ∀ v : Int, (wrap64 v).toInt = (v + 2 ^ 63) % 2 ^ 64 - 2 ^ 63

/-! ### Memory -/

/-- R34 and R33: a write is read back at its address and nowhere else, raises the extent as the rule says, and touches
nothing but memory and extent. -/
def Obligations.WriteThenRead : Prop :=
  ∀ (s : State) (a : Nat) (v : Word), s.mem.wf →
    (s.memWrite a v).memRead a = v ∧
    (∀ x, x ≠ a → (s.memWrite a v).memRead x = s.memRead x) ∧
    (s.len ≤ a → (s.memWrite a v).len = a + 1) ∧ (a < s.len → (s.memWrite a v).len = s.len) ∧
    s.memWrite a v = { s with mem := (s.memWrite a v).mem, len := (s.memWrite a v).len }

/-- R17's invariant, as it is seen by a read: every cell at or beyond the extent reads as 0. -/
def Obligations.BeyondExtentReadsZero : Prop :=
  ∀ (s : State) (a : Nat), s.Sound → s.len ≤ a → s.memRead a = 0

/-! ### Frames -/

/-- What Add, Multiply, LessThan and Equals leave unchanged: every register but `ip`, both queues, `status`, and every
cell but the destination. A form whose destination does not resolve changes no cell and no extent. -/
def Obligations.ComputeFrame : Prop :=
  ∀ (s t : State) (a b dst : Param), s.mem.wf →
    ∀ i ∈ [Instr.add a b dst, .multiply a b dst, .lessThan a b dst, .equals a b dst], exec i s = .next t →
      t.rb = s.rb ∧ t.status = s.status ∧ t.iq = s.iq ∧ t.ob = s.ob ∧
      (∀ d, s.writeAddr 3 dst = .ok d → ∀ x, x ≠ d → t.memRead x = s.memRead x) ∧
      (∀ d, s.writeAddr 3 dst = .ok d → d < s.len → t.len = s.len) ∧
      (∀ f, s.writeAddr 3 dst = .error f → (∀ x, t.memRead x = s.memRead x) ∧ t.len = s.len) ∧
      (t.fault = s.fault ∨ t.mem = s.mem ∧ t.len = s.len ∧ t.ip = s.ip)

/-- What Input leaves unchanged: `rb`, the output buffer, and every cell but the destination; with an empty queue, or a
destination that does not resolve, every cell and the queue. -/
def Obligations.InputFrame : Prop :=
  ∀ (s t : State) (dst : Param), s.mem.wf → exec (.input dst) s = .next t →
    t.rb = s.rb ∧ t.ob = s.ob ∧
    (∀ d, s.writeAddr 1 dst = .ok d → ∀ x, x ≠ d → t.memRead x = s.memRead x) ∧
    (∀ d, s.writeAddr 1 dst = .ok d → d < s.len → t.len = s.len) ∧
    (s.iq = [] → t.mem = s.mem ∧ t.len = s.len ∧ t.iq = [] ∧ t.ip = s.ip) ∧
    (∀ f, s.writeAddr 1 dst = .error f → (∀ x, t.memRead x = s.memRead x) ∧ t.len = s.len ∧ t.iq = s.iq) ∧
    (s.iq ≠ [] → t.status = s.status)

/-- What the instructions that store nothing leave unchanged: memory and extent, the queue, and every register their rule
does not name. -/
def Obligations.NoStoreFrame : Prop :=
  (∀ (s t : State) (p : Param), exec (.output p) s = .next t →
    t.mem = s.mem ∧ t.len = s.len ∧ t.rb = s.rb ∧ t.status = s.status ∧ t.iq = s.iq) ∧
  (∀ (s t : State) (p q : Param), exec (.jumpIfTrue p q) s = .next t ∨ exec (.jumpIfFalse p q) s = .next t →
    t = { s with ip := t.ip, fault := t.fault }) ∧
  (∀ (s t : State) (p : Param), exec (.adjustRelativeBase p) s = .next t →
    t = { s with rb := t.rb, ip := t.ip, fault := t.fault }) ∧
  (∀ s t : State, exec .halt s = .next t → t = { s with status := t.status })

/-! ### Whole-machine rules -/

/-- The invariant is kept: whatever state meets it, a step leads to one that does. -/
def Obligations.StepKeepsSound : Prop :=
  ∀ s t : State, s.Sound → step s = .next t → t.Sound

/-- The invariant holds at reset and after the load of any program that fits the address space. -/
def Obligations.ResetAndLoadAreSound : Prop :=
  State.reset.Sound ∧
  ∀ program input : List Word, program.length ≤ 2 ^ 63 → (load program input).Sound

/-- The two agents together: every move of the host and of the core keeps the state sound, and inside a run the core is
active (no fault latched, status Running). -/
def Obligations.MovesKeepSound : Prop :=
  (∀ (op : HostOp) (p q : Phase) (a : Answer), p.Sound → hostMove op p = .ok (a, q) → q.Sound) ∧
  (∀ (p q : Phase) (a : Option Answer), p.Sound → coreMove p = .ok (a, q) → q.Sound)

/-- R14: `rb` is changed by AdjustRelativeBase alone. -/
def Obligations.OnlyAdjustWritesRb : Prop :=
  ∀ s t : State, step s = .next t → t.rb ≠ s.rb → ∃ p, s.Fetches (.adjustRelativeBase p)

/-- R12: where `ip` goes. A fault, a halt and a block leave it; every other end of an instruction advances it by the size
of the instruction or, for a jump, loads the target's value. -/
def Obligations.IpGoesWhereTheRuleSays : Prop :=
  ∀ (i : Instr) (s t : State), s.Active → exec i s = .next t →
    ((t.fault ≠ none ∨ t.status ≠ .running) → t.ip = s.ip) ∧
    (t.fault = none → t.status = .running →
      t.ip = s.ip + BitVec.ofNat 64 i.size ∨
      ∃ test target, (i = .jumpIfTrue test target ∨ i = .jumpIfFalse test target) ∧ s.readValue target = .ok t.ip)

/-- R17, R19, R20: a step never lowers the extent, only appends to the output buffer, at most one value, and only removes
from the front of the input queue, at most one value. -/
def Obligations.ExtentAndQueueDiscipline : Prop :=
  ∀ s t : State, step s = .next t →
    s.len ≤ t.len ∧ (t.ob = s.ob ∨ ∃ v, t.ob = s.ob ++ [v]) ∧ (t.iq = s.iq ∨ ∃ x, s.iq = x :: t.iq)

/-- R15: the transitions of `status` that a step makes. -/
def Obligations.StatusTransitions : Prop :=
  ∀ s t : State, step s = .next t → t.status ≠ s.status →
    s.Active ∧
    ((t.status = .waitingForInput ∧ s.iq = [] ∧ ∃ dst, s.Fetches (.input dst)) ∨
      (t.status = .halted ∧ (s.Fetches .halt ∨ (0 ≤ s.ip.toInt ∧ s.len ≤ s.ip.toNat))))

/-- R26: `rb` is read by an instruction only through a Relative parameter; AdjustRelativeBase apart, which adds to it. -/
def Obligations.RbMattersOnlyToRelative : Prop :=
  ∀ (i : Instr) (s t : State) (r : Word), (∀ p ∈ i.params, p.mode ≠ .relative) → i.opcode ≠ .adjustRelativeBase →
    exec i s = .next t → exec i { s with rb := r } = .next { t with rb := r }

/-- R20: the core never reads the output buffer: with another buffer a step does the same and appends the same. -/
def Obligations.OutputBufferNeverRead : Prop :=
  ∀ (s t : State) (l : List Word), step s = .next t →
    step { s with ob := l } = .next { t with ob := l ++ t.ob.drop s.ob.length }

/-- R167, R82: a core inside a run always has a step, so a run ends or goes on for ever; no step is refused. -/
def Obligations.CoreInRunAlwaysMoves : Prop :=
  (∀ s : State, (Phase.inRun s).Sound → ∃ a q, coreMove (.inRun s) = .ok (a, q)) ∧
  (∀ (s : State) (r : Refusal), step s ≠ .refused r)

/-! ### The run loop -/

/-- R85, R16: a run on a faulted core reports the record again, and a run on a halted core is a no-op; both whatever the
executor's budget. -/
def Obligations.RunOnStoppedCore : Prop :=
  (∀ (s : State) (r : FaultRecord) (n : Nat), s.fault = some r → runFor n s = (some (.faulted r), s)) ∧
  (∀ (s : State) (n : Nat), s.fault = none → s.status = .halted → runFor n s = (some .halted, s))

/-- R85, D26: a run on a waiting core whose queue is still empty blocks again and leaves the state as it was. -/
def Obligations.RunOnWaitingCoreBlocksAgain : Prop :=
  ∀ (s : State) (dst : Param) (n : Nat), s.fault = none → s.status = .waitingForInput → s.iq = [] →
    s.Fetches (.input dst) → s.ip.toInt + 2 ≤ Config.maxAddr → runFor (n + 1) s = (some .blocked, s)

/-- R121: how a run ends is seen in the state it leaves: a latched fault, or status Halted, or status WaitingForInput;
never Running without a fault. -/
def Obligations.RunEndsAreVisible : Prop :=
  ∀ (s t : State) (n : Nat) (e : RunEnd), runFor n s = (some e, t) →
    (e = .halted ∧ t.fault = none ∧ t.status = .halted) ∨
    (e = .blocked ∧ t.fault = none ∧ t.status = .waitingForInput) ∨
    ∃ r, e = .faulted r ∧ t.fault = some r

/-- R86: the budget is the executor's, not the machine's: a run that has ended ends alike under any larger budget. -/
def Obligations.BudgetDoesNotMatter : Prop :=
  ∀ (s t : State) (n m : Nat) (e : RunEnd), runFor n s = (some e, t) → n ≤ m → runFor m s = (some e, t)

/-- R86: a taken jump to its own address, JumpIfTrue or JumpIfFalse, never ends a run: under every budget the run is still
going, in the same state. -/
def Obligations.JumpToItselfNeverEnds : Prop :=
  ∀ (s : State) (test target : Param) (v : Word) (n : Nat), s.Active →
    (s.Fetches (.jumpIfTrue test target) ∧ v ≠ 0 ∨ s.Fetches (.jumpIfFalse test target) ∧ v = 0) →
    s.ip.toInt + 3 ≤ Config.maxAddr → s.readValue test = .ok v → s.readValue target = .ok s.ip →
    runFor n s = (none, s)

/-! ### The host's transactions -/

/-- R24: the state after a load, cell by cell; and before the first load no other transaction is defined. -/
def Obligations.LoadSetsEverything : Prop :=
  (∀ op : HostOp, (∀ program input, op ≠ .load program input) → hostMove op .unloaded = .error .notLoaded) ∧
  ∀ program input : List Word,
    (∀ i, i < program.length → (load program input).memRead i = program.getD i 0) ∧
    (∀ i, program.length ≤ i → (load program input).memRead i = 0) ∧
    (load program input).len = program.length ∧ (load program input).ip = 0 ∧ (load program input).rb = 0 ∧
    (load program input).status = .running ∧ (load program input).fault = none ∧
    (load program input).iq = input ∧ (load program input).ob = []

/-- Reset is the load of the empty program (log 9), whose first step halts at once (R114 b). -/
def Obligations.ResetIsEmptyLoad : Prop :=
  State.reset = load [] [] ∧ step State.reset = .next { State.reset with status := .halted }

/-- R122: input is pushed in order and nothing else changes; in pieces or at once is the same. -/
def Obligations.AddInputPushes : Prop :=
  ∀ (s : State) (vs ws : List Word),
    addInput vs s = { s with iq := s.iq ++ vs } ∧ addInput [] s = s ∧
    addInput ws (addInput vs s) = addInput (vs ++ ws) s

/-- R123, R124, R125: draining returns the whole buffer and empties it, a second drain returns nothing; the two peeks
change nothing (they return no state) and agree with the buffer; the newest element is absent exactly when the buffer is
empty. -/
def Obligations.OutputTransactions : Prop :=
  ∀ (s : State) (v : Word) (vs : List Word),
    readOutput s = (s.ob, { s with ob := [] }) ∧ readOutput (readOutput s).2 = ([], (readOutput s).2) ∧
    fullOutput s = s.ob ∧ (lastOutput s = none ↔ s.ob = []) ∧ (s.ob = vs ++ [v] → lastOutput s = some v)

/-- R126: a poke at a valid address is the memory write, in any status; at any other it fails with the address and leaves
the state, the fault latch included, as it was. -/
def Obligations.PokeWrites : Prop :=
  ∀ (s : State) (a : Int) (v : Word),
    (0 ≤ a → a ≤ 2 ^ 63 - 1 → idleMove (.poke a v) s = .ok (.done, .idle (s.memWrite a.toNat v))) ∧
    (a < 0 → idleMove (.poke a v) s = .ok (.invalidAddress a, .idle s)) ∧
    (2 ^ 63 - 1 < a → idleMove (.poke a v) s = .ok (.invalidAddress a, .idle s))

/-- R128: the memory transaction answers the snapshot and changes nothing; the snapshot is the cells 0 to len-1; cells at
or beyond len are no part of it and, in every sound state, are 0. -/
def Obligations.SnapshotIsTheExtent : Prop :=
  ∀ s : State,
    idleMove .memory s = .ok (.values (memorySnapshot s), .idle s) ∧ (memorySnapshot s).length = s.len ∧
    (∀ i, i < s.len → (memorySnapshot s)[i]? = some (s.memRead i)) ∧
    (∀ i, s.len ≤ i → (memorySnapshot s)[i]? = none) ∧
    (s.Sound → ∀ i, s.len ≤ i → s.memRead i = 0)

/-- R131: no transaction but load writes `ip`, `rb`, `status` or `fault` of a core between runs, and none removes or
reorders queued input, or writes the output buffer otherwise than by draining it. -/
def Obligations.HostWritesNoRegister : Prop :=
  ∀ (op : HostOp) (s t : State) (a : Answer), (∀ program input, op ≠ .load program input) →
    idleMove op s = .ok (a, .idle t) →
    t.ip = s.ip ∧ t.rb = s.rb ∧ t.status = s.status ∧ t.fault = s.fault ∧ s.len ≤ t.len ∧
    (∃ l, t.iq = s.iq ++ l) ∧ (t.ob = s.ob ∨ t.ob = [])

/-- R16, R148: a latched fault is never cleared but by a load, and the host may still use every other transaction. -/
def Obligations.FaultIsSticky : Prop :=
  ∀ (op : HostOp) (s : State) (r : FaultRecord), s.fault = some r → (∀ program input, op ≠ .load program input) →
    ∃ a t, idleMove op s = .ok (a, .idle t) ∧ t.fault = some r
end

