-- ==== Sys2Proof/Laws/State.lean ====
section
/-! SUPPORT. One lemma per field per update of the state, true by unfolding, so that no later proof unfolds a record
update. -/

namespace Sys2Proof.Machine

variable (s : State)

@[simp] theorem State.memWrite_mem (a : Nat) (v : Word) : (s.memWrite a v).mem = s.mem.write a v := rfl
@[simp] theorem State.memWrite_len (a : Nat) (v : Word) : (s.memWrite a v).len = (if s.len ≤ a then a + 1 else s.len) := rfl
@[simp] theorem State.memWrite_ip (a : Nat) (v : Word) : (s.memWrite a v).ip = s.ip := rfl
@[simp] theorem State.memWrite_rb (a : Nat) (v : Word) : (s.memWrite a v).rb = s.rb := rfl
@[simp] theorem State.memWrite_status (a : Nat) (v : Word) : (s.memWrite a v).status = s.status := rfl
@[simp] theorem State.memWrite_fault (a : Nat) (v : Word) : (s.memWrite a v).fault = s.fault := rfl
@[simp] theorem State.memWrite_iq (a : Nat) (v : Word) : (s.memWrite a v).iq = s.iq := rfl
@[simp] theorem State.memWrite_ob (a : Nat) (v : Word) : (s.memWrite a v).ob = s.ob := rfl

@[simp] theorem State.raise_mem (r : FaultRecord) : (s.raise r).mem = s.mem := rfl
@[simp] theorem State.raise_len (r : FaultRecord) : (s.raise r).len = s.len := rfl
@[simp] theorem State.raise_ip (r : FaultRecord) : (s.raise r).ip = s.ip := rfl
@[simp] theorem State.raise_rb (r : FaultRecord) : (s.raise r).rb = s.rb := rfl
@[simp] theorem State.raise_status (r : FaultRecord) : (s.raise r).status = s.status := rfl
@[simp] theorem State.raise_fault (r : FaultRecord) : (s.raise r).fault = s.fault.or (some r) := rfl
@[simp] theorem State.raise_iq (r : FaultRecord) : (s.raise r).iq = s.iq := rfl
@[simp] theorem State.raise_ob (r : FaultRecord) : (s.raise r).ob = s.ob := rfl
@[simp] theorem State.raise_memRead (r : FaultRecord) (x : Nat) : (s.raise r).memRead x = s.memRead x := rfl

@[simp] theorem State.setIp_mem (t : Word) : (s.setIp t).mem = s.mem := rfl
@[simp] theorem State.setIp_len (t : Word) : (s.setIp t).len = s.len := rfl
@[simp] theorem State.setIp_ip (t : Word) : (s.setIp t).ip = t := rfl
@[simp] theorem State.setIp_rb (t : Word) : (s.setIp t).rb = s.rb := rfl
@[simp] theorem State.setIp_status (t : Word) : (s.setIp t).status = s.status := rfl
@[simp] theorem State.setIp_fault (t : Word) : (s.setIp t).fault = s.fault := rfl
@[simp] theorem State.setIp_iq (t : Word) : (s.setIp t).iq = s.iq := rfl
@[simp] theorem State.setIp_ob (t : Word) : (s.setIp t).ob = s.ob := rfl
@[simp] theorem State.setIp_memRead (t : Word) (x : Nat) : (s.setIp t).memRead x = s.memRead x := rfl

@[simp] theorem State.advance_mem (n : Nat) : (s.advance n).mem = s.mem := rfl
@[simp] theorem State.advance_len (n : Nat) : (s.advance n).len = s.len := rfl
@[simp] theorem State.advance_ip (n : Nat) : (s.advance n).ip = wrap64 (s.ip.toInt + n) := rfl
@[simp] theorem State.advance_rb (n : Nat) : (s.advance n).rb = s.rb := rfl
@[simp] theorem State.advance_status (n : Nat) : (s.advance n).status = s.status := rfl
@[simp] theorem State.advance_fault (n : Nat) : (s.advance n).fault = s.fault := rfl
@[simp] theorem State.advance_iq (n : Nat) : (s.advance n).iq = s.iq := rfl
@[simp] theorem State.advance_ob (n : Nat) : (s.advance n).ob = s.ob := rfl
@[simp] theorem State.advance_memRead (n : Nat) (x : Nat) : (s.advance n).memRead x = s.memRead x := rfl

@[simp] theorem State.setRb_mem (v : Word) : (s.setRb v).mem = s.mem := rfl
@[simp] theorem State.setRb_len (v : Word) : (s.setRb v).len = s.len := rfl
@[simp] theorem State.setRb_ip (v : Word) : (s.setRb v).ip = s.ip := rfl
@[simp] theorem State.setRb_rb (v : Word) : (s.setRb v).rb = v := rfl
@[simp] theorem State.setRb_status (v : Word) : (s.setRb v).status = s.status := rfl
@[simp] theorem State.setRb_fault (v : Word) : (s.setRb v).fault = s.fault := rfl
@[simp] theorem State.setRb_iq (v : Word) : (s.setRb v).iq = s.iq := rfl
@[simp] theorem State.setRb_ob (v : Word) : (s.setRb v).ob = s.ob := rfl
@[simp] theorem State.setRb_memRead (v : Word) (x : Nat) : (s.setRb v).memRead x = s.memRead x := rfl

@[simp] theorem State.setStatus_mem (v : Status) : (s.setStatus v).mem = s.mem := rfl
@[simp] theorem State.setStatus_len (v : Status) : (s.setStatus v).len = s.len := rfl
@[simp] theorem State.setStatus_ip (v : Status) : (s.setStatus v).ip = s.ip := rfl
@[simp] theorem State.setStatus_rb (v : Status) : (s.setStatus v).rb = s.rb := rfl
@[simp] theorem State.setStatus_status (v : Status) : (s.setStatus v).status = v := rfl
@[simp] theorem State.setStatus_fault (v : Status) : (s.setStatus v).fault = s.fault := rfl
@[simp] theorem State.setStatus_iq (v : Status) : (s.setStatus v).iq = s.iq := rfl
@[simp] theorem State.setStatus_ob (v : Status) : (s.setStatus v).ob = s.ob := rfl
@[simp] theorem State.setStatus_memRead (v : Status) (x : Nat) : (s.setStatus v).memRead x = s.memRead x := rfl

@[simp] theorem State.setQueue_mem (q : List Word) : (s.setQueue q).mem = s.mem := rfl
@[simp] theorem State.setQueue_len (q : List Word) : (s.setQueue q).len = s.len := rfl
@[simp] theorem State.setQueue_ip (q : List Word) : (s.setQueue q).ip = s.ip := rfl
@[simp] theorem State.setQueue_rb (q : List Word) : (s.setQueue q).rb = s.rb := rfl
@[simp] theorem State.setQueue_status (q : List Word) : (s.setQueue q).status = s.status := rfl
@[simp] theorem State.setQueue_fault (q : List Word) : (s.setQueue q).fault = s.fault := rfl
@[simp] theorem State.setQueue_iq (q : List Word) : (s.setQueue q).iq = q := rfl
@[simp] theorem State.setQueue_ob (q : List Word) : (s.setQueue q).ob = s.ob := rfl
@[simp] theorem State.setQueue_memRead (q : List Word) (x : Nat) : (s.setQueue q).memRead x = s.memRead x := rfl

@[simp] theorem State.appendOutput_mem (v : Word) : (s.appendOutput v).mem = s.mem := rfl
@[simp] theorem State.appendOutput_len (v : Word) : (s.appendOutput v).len = s.len := rfl
@[simp] theorem State.appendOutput_ip (v : Word) : (s.appendOutput v).ip = s.ip := rfl
@[simp] theorem State.appendOutput_rb (v : Word) : (s.appendOutput v).rb = s.rb := rfl
@[simp] theorem State.appendOutput_status (v : Word) : (s.appendOutput v).status = s.status := rfl
@[simp] theorem State.appendOutput_fault (v : Word) : (s.appendOutput v).fault = s.fault := rfl
@[simp] theorem State.appendOutput_iq (v : Word) : (s.appendOutput v).iq = s.iq := rfl
@[simp] theorem State.appendOutput_ob (v : Word) : (s.appendOutput v).ob = s.ob ++ [v] := rfl
@[simp] theorem State.appendOutput_memRead (v : Word) (x : Nat) : (s.appendOutput v).memRead x = s.memRead x := rfl

end Sys2Proof.Machine
end

