-- ==== Sys2Proof/Laws/Memory.lean ====
section
/-! SUPPORT. The laws of the cell memory (20_memory.md R33, R34): read after write, the canonical form every operation
keeps, and the cells of a loaded list. -/

namespace Sys2Proof.Machine

@[simp] theorem Memory.read_nil (a : Nat) : Memory.read [] a = 0 := rfl

theorem Memory.read_cons (b : Nat) (v : Word) (m : Memory) (a : Nat) :
    Memory.read ((b, v) :: m) a = if a = b then v else Memory.read m a := rfl

/-- An address below every listed one reads as 0. -/
theorem Memory.read_of_forall_lt {m : Memory} {a : Nat} (h : ∀ c ∈ m, a < c.1) : m.read a = 0 := by
  induction m with
  | nil => rfl
  | cons c m ih =>
    obtain ⟨b, v⟩ := c
    have hb : a < b := h (b, v) (by simp)
    rw [read_cons, if_neg (by omega)]
    exact ih fun c hc => h c (by simp [hc])

/-- An address no entry has reads as 0. -/
theorem Memory.read_of_forall_ne {m : Memory} {a : Nat} (h : ∀ c ∈ m, c.1 ≠ a) : m.read a = 0 := by
  induction m with
  | nil => rfl
  | cons c m ih =>
    obtain ⟨b, v⟩ := c
    have hb : b ≠ a := h (b, v) (by simp)
    rw [read_cons, if_neg (by omega)]
    exact ih fun c hc => h c (by simp [hc])

/-- In a canonical memory an entry is what its address reads as. -/
theorem Memory.read_of_mem {m : Memory} (hw : m.wf) {c : Nat × Word} (h : c ∈ m) : m.read c.1 = c.2 := by
  induction m with
  | nil => simp at h
  | cons d m ih =>
    obtain ⟨b, v⟩ := d
    obtain ⟨hp, hz⟩ := hw
    rw [List.pairwise_cons] at hp
    rw [read_cons]
    rcases List.mem_cons.1 h with rfl | h
    · simp
    · have := hp.1 c h
      rw [if_neg (by simp at this; omega)]
      exact ih ⟨hp.2, fun c hc => hz c (by simp [hc])⟩ h

/-- A write touches no entry but its own address's: what it lists is the old entries and the new one. -/
theorem Memory.mem_write {m : Memory} {a : Nat} {v : Word} {c : Nat × Word} (h : c ∈ m.write a v) :
    c ∈ m ∨ (c = (a, v) ∧ v ≠ 0) := by
  induction m with
  | nil =>
    simp only [Memory.write] at h
    split_ifs at h with hv
    · simp at h
    · exact .inr ⟨by simpa using h, hv⟩
  | cons d m ih =>
    obtain ⟨b, u⟩ := d
    simp only [Memory.write] at h
    split_ifs at h
    · exact .inl h
    · rcases List.mem_cons.1 h with rfl | h
      · exact .inr ⟨rfl, ‹_›⟩
      · exact .inl h
    · exact .inl (List.mem_cons_of_mem _ h)
    · rcases List.mem_cons.1 h with rfl | h
      · exact .inr ⟨rfl, ‹_›⟩
      · exact .inl (List.mem_cons_of_mem _ h)
    · rcases List.mem_cons.1 h with rfl | h
      · exact .inl (by simp)
      · exact (ih h).imp_left (List.mem_cons_of_mem _)

/-- Every write keeps the canonical form. -/
theorem Memory.write_wf {m : Memory} (hw : m.wf) (a : Nat) (v : Word) : (m.write a v).wf := by
  refine ⟨?_, fun c hc => ?_⟩
  · obtain ⟨hp, -⟩ := hw
    induction m with
    | nil => simp only [Memory.write]; split_ifs <;> simp
    | cons d m ih =>
      obtain ⟨b, u⟩ := d
      have hp' := List.pairwise_cons.1 hp
      simp only [Memory.write]
      split_ifs with h1 h2 h3 h4
      · exact hp
      · refine List.pairwise_cons.2 ⟨fun c hc => ?_, hp⟩
        rcases List.mem_cons.1 hc with rfl | hc
        · exact h1
        · exact Nat.lt_trans h1 (hp'.1 c hc)
      · exact hp'.2
      · exact List.pairwise_cons.2 ⟨fun c hc => h3 ▸ hp'.1 c hc, hp'.2⟩
      · refine List.pairwise_cons.2 ⟨fun c hc => ?_, ih hp'.2⟩
        rcases Memory.mem_write hc with hc | ⟨rfl, -⟩
        · exact hp'.1 c hc
        · simp only; omega
  · rcases Memory.mem_write hc with hc | ⟨rfl, hv⟩
    · exact hw.2 c hc
    · exact hv

/-- Read after write, at the written address and at every other, in a canonical memory. -/
theorem Memory.read_write {m : Memory} (hw : m.wf) (a : Nat) (v : Word) (x : Nat) :
    (m.write a v).read x = if x = a then v else m.read x := by
  induction m with
  | nil =>
    simp only [Memory.write]
    split_ifs with hv hx hx
    · simp [hv]
    · rfl
    · simp [Memory.read_cons, hx]
    · simp [Memory.read_cons, hx]
  | cons d m ih =>
    obtain ⟨b, u⟩ := d
    have hp := List.pairwise_cons.1 hw.1
    have above : ∀ y, y ≤ b → Memory.read m y = 0 := fun y hy =>
      Memory.read_of_forall_lt fun c hc => Nat.lt_of_le_of_lt hy (hp.1 c hc)
    have ih := ih ⟨hp.2, fun c hc => hw.2 c (List.mem_cons_of_mem _ hc)⟩
    simp only [Memory.write]
    by_cases h1 : a < b
    · rw [if_pos h1]
      by_cases hv : v = 0
      · rw [if_pos hv]
        by_cases hx : x = a
        · rw [if_pos hx, Memory.read_cons, if_neg (by omega), above x (by omega), hv]
        · rw [if_neg hx]
      · rw [if_neg hv, Memory.read_cons]
    · rw [if_neg h1]
      by_cases h2 : a = b
      · rw [if_pos h2]
        by_cases hv : v = 0
        · rw [if_pos hv]
          by_cases hx : x = a
          · rw [if_pos hx, above x (by omega), hv]
          · rw [if_neg hx, Memory.read_cons, if_neg (by omega)]
        · rw [if_neg hv, Memory.read_cons, Memory.read_cons]
          by_cases hx : x = a
          · rw [if_pos hx, if_pos hx]
          · rw [if_neg hx, if_neg hx, if_neg (by omega)]
      · rw [if_neg h2, Memory.read_cons, Memory.read_cons, ih]
        by_cases hx : x = b
        · rw [if_pos hx, if_neg (by omega), if_pos hx]
        · rw [if_neg hx, if_neg hx]

/-- An address where a canonical memory reads a value other than 0 is listed with that value. -/
theorem Memory.mem_of_read {m : Memory} {a : Nat} (h : m.read a ≠ 0) : (a, m.read a) ∈ m := by
  induction m with
  | nil => exact absurd rfl h
  | cons d m ih =>
    obtain ⟨b, v⟩ := d
    rw [Memory.read_cons] at h ⊢
    split_ifs at h ⊢ with hab
    · simp [hab]
    · exact List.mem_cons_of_mem _ (ih h)

/-- The cells of a loaded list: entry `i` of the list at address `base + i`, 0 elsewhere. -/
theorem Memory.read_ofCells (vs : List Word) (base a : Nat) :
    (Memory.ofCells base vs).read a = if base ≤ a then vs.getD (a - base) 0 else 0 := by
  induction vs generalizing base with
  | nil => simp [Memory.ofCells]
  | cons v vs ih =>
    simp only [Memory.ofCells]
    by_cases hv : v = 0
    · rw [if_pos hv, ih]
      rcases Nat.lt_trichotomy a base with h | h | h
      · rw [if_neg (by omega), if_neg (by omega)]
      · subst h; simp [hv]
      · rw [if_pos (by omega), if_pos (by omega), show a - base = (a - (base + 1)) + 1 by omega]; rfl
    · rw [if_neg hv, Memory.read_cons, ih]
      rcases Nat.lt_trichotomy a base with h | h | h
      · rw [if_neg (by omega), if_neg (by omega), if_neg (by omega)]
      · subst h; simp
      · rw [if_neg (by omega), if_pos (by omega), if_pos (by omega),
          show a - base = (a - (base + 1)) + 1 by omega]; rfl

/-- The cells of a loaded list lie at `base` and above, below the list's end, and none is listed as 0. -/
theorem Memory.mem_ofCells {vs : List Word} {base : Nat} {c : Nat × Word} (h : c ∈ Memory.ofCells base vs) :
    base ≤ c.1 ∧ c.1 < base + vs.length ∧ c.2 ≠ 0 := by
  induction vs generalizing base with
  | nil => simp [Memory.ofCells] at h
  | cons v vs ih =>
    simp only [Memory.ofCells] at h
    split_ifs at h with hv
    · have := ih h
      simp only [List.length_cons]; exact ⟨by omega, by omega, this.2.2⟩
    · rcases List.mem_cons.1 h with rfl | h
      · exact ⟨Nat.le_refl _, by simp, hv⟩
      · have := ih h
        simp only [List.length_cons]; exact ⟨by omega, by omega, this.2.2⟩

/-- A loaded list is in canonical form. -/
theorem Memory.ofCells_wf (vs : List Word) (base : Nat) : (Memory.ofCells base vs).wf := by
  refine ⟨?_, fun c hc => (Memory.mem_ofCells hc).2.2⟩
  induction vs generalizing base with
  | nil => simp [Memory.ofCells]
  | cons v vs ih =>
    simp only [Memory.ofCells]
    split_ifs
    · exact ih _
    · exact List.pairwise_cons.2 ⟨fun c hc => (Memory.mem_ofCells hc).1, ih _⟩

end Sys2Proof.Machine
end

