-- ==== Sys2Proof/Laws/Operations.lean ====
section
/-! SUPPORT. For each shared operation, once, everything it can do: later proofs cite these and do not unfold the
operation. The last lemma says it for `exec`, whatever the instruction. -/

namespace Sys2Proof.Machine

variable {s t : State}

/-! Address checks (R31, R32, R74). -/

theorem validAddr_iff {a : Int} : validAddr a = true ↔ 0 ≤ a ∧ a ≤ Config.maxAddr := by
  simp [validAddr]

theorem State.checkAddr_ok {a : Int} {n : Nat} (h : s.checkAddr a = .ok n) :
    0 ≤ a ∧ a ≤ Config.maxAddr ∧ n = a.toNat := by
  simp only [State.checkAddr] at h
  split_ifs at h with hv
  have := validAddr_iff.1 hv
  exact ⟨this.1, this.2, (Except.ok.inj h).symm⟩

theorem State.checkAddr_of_valid {a : Int} (h0 : 0 ≤ a) (h1 : a ≤ Config.maxAddr) :
    s.checkAddr a = .ok a.toNat := by
  rw [State.checkAddr, if_pos (validAddr_iff.2 ⟨h0, h1⟩)]

theorem State.checkAddr_of_invalid {a : Int} (h : a < 0 ∨ Config.maxAddr < a) :
    s.checkAddr a = .error (.invalidAddress a s.ip) := by
  rw [State.checkAddr, if_neg]
  rw [validAddr_iff]; omega

/-- A checked cell number lies in the address space. -/
theorem State.checkAddr_lt {a : Int} {n : Nat} (h : s.checkAddr a = .ok n) : n < Config.maxLen := by
  obtain ⟨h0, h1, rfl⟩ := State.checkAddr_ok h
  simp only [Config.maxAddr, Config.maxLen] at *
  omega

theorem State.checkAdvance_ok {n : Nat} (h : s.ip.toInt + n ≤ Config.maxAddr) : s.checkAdvance n = .ok () :=
  if_pos h

theorem State.checkAdvance_error {n : Nat} (h : Config.maxAddr < s.ip.toInt + n) :
    s.checkAdvance n = .error (.invalidAddress (s.ip.toInt + n) s.ip) :=
  if_neg (by omega)

/-! Operands (R78, R79). -/

theorem State.writeAddr_lt {k d : Nat} {p : Param} (h : s.writeAddr k p = .ok d) : d < Config.maxLen := by
  simp only [State.writeAddr] at h
  split at h
  · exact State.checkAddr_lt h
  · cases h
  · exact State.checkAddr_lt h

/-- The address written does not depend on the queue. -/
@[simp] theorem State.writeAddr_setQueue (q : List Word) (k : Nat) (p : Param) :
    (s.setQueue q).writeAddr k p = s.writeAddr k p := rfl

/-! Completion and the shared stages (R70, R141). -/

/-- The stages' end is always a next state: the effect, or the fault taken. -/
theorem State.complete_next {r : Except FaultRecord State} (h : s.complete r = .next t) :
    r = .ok t ∨ ∃ f, r = .error f ∧ t = s.raise f := by
  cases r with
  | ok u => exact .inl (by rw [State.complete] at h; injection h with h; rw [h])
  | error f => exact .inr ⟨f, rfl, by rw [State.complete] at h; injection h with h; exact h.symm⟩

theorem State.complete_total (r : Except FaultRecord State) : ∃ t, s.complete r = .next t := by
  cases r with
  | ok u => exact ⟨u, rfl⟩
  | error f => exact ⟨s.raise f, rfl⟩

theorem State.computeStore_ok {f : Word → Word → Word} {a b dst : Param} (h : s.computeStore f a b dst = .ok t) :
    ∃ v1 v2 d, s.readValue a = .ok v1 ∧ s.readValue b = .ok v2 ∧ s.writeAddr 3 dst = .ok d ∧
      s.ip.toInt + 4 ≤ Config.maxAddr ∧ t = (s.memWrite d (f v1 v2)).advance 4 := by
  simp only [State.computeStore, State.checkAdvance, bind, Except.bind] at h
  split_ifs at h with hadv
  cases ha : s.readValue a with
  | error e => simp [ha] at h
  | ok v1 =>
    cases hb : s.readValue b with
    | error e => simp [ha, hb] at h
    | ok v2 =>
      cases hd : s.writeAddr 3 dst with
      | error e => simp [ha, hb, hd] at h
      | ok d =>
        simp only [ha, hb, hd] at h
        exact ⟨v1, v2, d, rfl, rfl, rfl, hadv, (Except.ok.inj h).symm⟩

theorem State.jumpWhen_ok {taken : Word → Bool} {test target : Param} (h : s.jumpWhen taken test target = .ok t) :
    ∃ v1 v2, s.readValue test = .ok v1 ∧ s.readValue target = .ok v2 ∧
      t = if taken v1 then s.setIp v2 else s.advance 3 := by
  simp only [State.jumpWhen, State.checkAdvance, bind, Except.bind] at h
  split_ifs at h with hadv
  cases ha : s.readValue test with
  | error e => simp [ha] at h
  | ok v1 =>
    cases hb : s.readValue target with
    | error e => simp [ha, hb] at h
    | ok v2 =>
      simp only [ha, hb] at h
      exact ⟨v1, v2, rfl, rfl, (Except.ok.inj h).symm⟩

/-! The meanings. -/

/-- What executing an instruction that meets no fault can leave, by kind of effect (R80). -/
inductive Effect (s : State) : State → Prop where
  | store (d : Nat) (v : Word) (hd : d < Config.maxLen) : Effect s ((s.memWrite d v).advance 4)
  | take (x : Word) (rest : List Word) (hq : s.iq = x :: rest) (d : Nat) (hd : d < Config.maxLen) :
      Effect s (((s.setQueue rest).memWrite d x).advance 2)
  | block (hq : s.iq = []) : Effect s (s.setStatus .waitingForInput)
  | emit (v : Word) : Effect s ((s.appendOutput v).advance 2)
  | jump (t : Word) : Effect s (s.setIp t)
  | fall : Effect s (s.advance 3)
  | rebase (v : Word) : Effect s ((s.setRb v).advance 2)
  | halt : Effect s (s.setStatus .halted)

theorem execComputeStore_cases {f : Word → Word → Word} {a b dst : Param}
    (h : s.complete (s.computeStore f a b dst) = .next t) : (∃ f, t = s.raise f) ∨ Effect s t := by
  rcases State.complete_next h with h | ⟨f, -, h⟩
  · obtain ⟨v1, v2, d, -, -, hd, -, rfl⟩ := State.computeStore_ok h
    exact .inr (.store d _ (State.writeAddr_lt hd))
  · exact .inl ⟨f, h⟩

theorem execJumpWhen_cases {taken : Word → Bool} {test target : Param}
    (h : s.complete (s.jumpWhen taken test target) = .next t) : (∃ f, t = s.raise f) ∨ Effect s t := by
  rcases State.complete_next h with h | ⟨f, -, h⟩
  · obtain ⟨v1, v2, -, -, rfl⟩ := State.jumpWhen_ok h
    cases taken v1
    · exact .inr .fall
    · exact .inr (.jump v2)
  · exact .inl ⟨f, h⟩

theorem execInput_cases {dst : Param} (h : execInput dst s = .next t) : (∃ f, t = s.raise f) ∨ Effect s t := by
  rcases State.complete_next h with h | ⟨f, -, h⟩
  · simp only [State.checkAdvance, bind, Except.bind] at h
    split_ifs at h
    simp only at h
    split at h
    · next hq =>
      rw [← Except.ok.inj h]
      exact .inr (.block hq)
    · next x rest hq =>
      cases hd : s.writeAddr 1 dst with
      | error e => simp [hd] at h
      | ok d =>
        simp only [hd] at h
        rw [← Except.ok.inj h]
        exact .inr (.take x rest hq d (State.writeAddr_lt hd))
  · exact .inl ⟨f, h⟩

theorem execOutput_cases {v : Param} (h : execOutput v s = .next t) : (∃ f, t = s.raise f) ∨ Effect s t := by
  rcases State.complete_next h with h | ⟨f, -, h⟩
  · simp only [State.checkAdvance, bind, Except.bind] at h
    split_ifs at h
    cases hv : s.readValue v with
    | error e => simp [hv] at h
    | ok v1 =>
      simp only [hv] at h
      rw [← Except.ok.inj h]
      exact .inr (.emit v1)
  · exact .inl ⟨f, h⟩

theorem execAdjustRelativeBase_cases {a : Param} (h : execAdjustRelativeBase a s = .next t) :
    (∃ f, t = s.raise f) ∨ Effect s t := by
  rcases State.complete_next h with h | ⟨f, -, h⟩
  · simp only [State.checkAdvance, bind, Except.bind] at h
    split_ifs at h
    cases hv : s.readValue a with
    | error e => simp [hv] at h
    | ok v1 =>
      simp only [hv] at h
      rw [← Except.ok.inj h]
      exact .inr (.rebase _)
  · exact .inl ⟨f, h⟩

/-- Everything an instruction can do: take a fault and change nothing else, or have one of the effects. -/
theorem exec_cases {i : Instr} (h : exec i s = .next t) : (∃ f, t = s.raise f) ∨ Effect s t := by
  cases i with
  | add a b dst => exact execComputeStore_cases h
  | multiply a b dst => exact execComputeStore_cases h
  | input dst => exact execInput_cases h
  | output v => exact execOutput_cases h
  | jumpIfTrue test target => exact execJumpWhen_cases h
  | jumpIfFalse test target => exact execJumpWhen_cases h
  | lessThan a b dst => exact execComputeStore_cases h
  | equals a b dst => exact execComputeStore_cases h
  | adjustRelativeBase a => exact execAdjustRelativeBase_cases h
  | halt =>
    injection h with h
    exact .inr (h ▸ .halt)

/-- Every instruction answers a next state, whatever the state (R82: no step is refused). -/
theorem exec_total (i : Instr) (s : State) : ∃ t, exec i s = .next t := by
  cases i with
  | halt => exact ⟨_, rfl⟩
  | add | multiply | input | output | jumpIfTrue | jumpIfFalse | lessThan | equals | adjustRelativeBase =>
    exact State.complete_total _

/-- Everything a step can do (R70, R82): in a state outside the precondition nothing changes; else a fault is taken, the
implicit halt is taken, or the decoded instruction runs. -/
theorem step_cases (h : step s = .next t) :
    s.fault = none ∧
      ((s.status ≠ .running ∧ t = s) ∨
        (s.status = .running ∧
          ((∃ f, s.fetch = .raised f ∧ t = s.raise f) ∨ (s.fetch = .pastEnd ∧ t = s.setStatus .halted) ∨
            ∃ i, s.fetch = .decoded i ∧ exec i s = .next t))) := by
  unfold step at h
  cases hf : s.fault with
  | some r => simp [hf] at h
  | none =>
    refine ⟨rfl, ?_⟩
    simp only [hf] at h
    cases hst : s.status with
    | halted =>
      simp only [hst] at h; injection h with h; exact .inl ⟨by simp, h.symm⟩
    | waitingForInput =>
      simp only [hst] at h; injection h with h; exact .inl ⟨by simp, h.symm⟩
    | running =>
      refine .inr ⟨rfl, ?_⟩
      simp only [hst] at h
      cases hx : s.fetch with
      | raised f => simp only [hx] at h; injection h with h; exact .inl ⟨f, rfl, h.symm⟩
      | pastEnd => simp only [hx, implicitHalt] at h; injection h with h; exact .inr (.inl ⟨rfl, h.symm⟩)
      | decoded i => simp only [hx] at h; exact .inr (.inr ⟨i, rfl, h⟩)

end Sys2Proof.Machine
end

