-- ==== Sys2Proof/Laws/PerInstr.lean ====
section
/-! SUPPORT. The family of statements made per instruction: the encoder's cells decode to the instruction they were made
from, whatever cells follow (30_encoding.md R50, R62, R69). -/

namespace Sys2Proof.Laws.RoundTrip

/-- Decoding the encoding of a well-formed instruction, followed by any cells, gives the instruction. -/
def Statement (i : Instr) : Prop :=
  i.wellFormed = true → ∀ rest : List Word, decode (Cells.ofList (i.encode ++ rest)) = .ok i

/-! The canonical word of each format decodes to its opcode and modes. -/

theorem header_three (op : Opcode) (h : op.nparams = 3) (m1 m2 m3 : Mode) (hw : m3 ≠ .immediate) :
    decodeWord (BitVec.ofNat 64 (op.number + 100 * m1.digit + 1000 * m2.digit + 10000 * m3.digit)) =
      .ok ⟨op, m1, m2, m3⟩ := by
  cases op <;> first
    | exact absurd h (by decide)
    | (cases m3 <;> first | exact absurd rfl hw | (cases m1 <;> cases m2 <;> decide))

theorem header_two (op : Opcode) (h : op.nparams = 2) (m1 m2 : Mode) :
    decodeWord (BitVec.ofNat 64 (op.number + 100 * m1.digit + 1000 * m2.digit)) = .ok ⟨op, m1, m2, .position⟩ := by
  cases op <;> first | exact absurd h (by decide) | (cases m1 <;> cases m2 <;> decide)

theorem header_one (op : Opcode) (h : op.nparams = 1) (m1 : Mode) (hw : op.wparam = some 1 → m1 ≠ .immediate) :
    decodeWord (BitVec.ofNat 64 (op.number + 100 * m1.digit)) = .ok ⟨op, m1, .position, .position⟩ := by
  cases op <;> first
    | exact absurd h (by decide)
    | (cases m1 <;> first | decide | exact absurd rfl (hw rfl))

theorem header_zero : decodeWord (BitVec.ofNat 64 Opcode.halt.number) = .ok ⟨.halt, .position, .position, .position⟩ := by
  decide

/-- Decoding needs the word's header and the cells alone. -/
theorem decode_mk {w : Word} {h : Header} (hd : decodeWord w = .ok h) (p q r : Word) :
    decode ⟨w, p, q, r⟩ = .ok (h.instr ⟨w, p, q, r⟩) := by
  simp only [decode, hd]

/-- A writable parameter is not Immediate. -/
theorem mode_ne_of_writable {p : Param} (h : p.writable = true) : p.mode ≠ .immediate := by
  intro hm; simp [Param.writable, hm] at h

/-! One lemma per instruction. The cells behind the instruction are those of `rest`; a format of fewer than four cells
looks at how many of them there are. -/

theorem add (a b dst : Param) : Statement (.add a b dst) := by
  intro h rest
  simp only [Instr.encode, Instr.wordValue, canonicalWord, Instr.opcode, Instr.params, List.map, List.cons_append,
    List.nil_append, Cells.ofList]
  rw [decode_mk (header_three .add rfl a.mode b.mode dst.mode (mode_ne_of_writable h))]
  rfl

theorem multiply (a b dst : Param) : Statement (.multiply a b dst) := by
  intro h rest
  simp only [Instr.encode, Instr.wordValue, canonicalWord, Instr.opcode, Instr.params, List.map, List.cons_append,
    List.nil_append, Cells.ofList]
  rw [decode_mk (header_three .multiply rfl a.mode b.mode dst.mode (mode_ne_of_writable h))]
  rfl

theorem lessThan (a b dst : Param) : Statement (.lessThan a b dst) := by
  intro h rest
  simp only [Instr.encode, Instr.wordValue, canonicalWord, Instr.opcode, Instr.params, List.map, List.cons_append,
    List.nil_append, Cells.ofList]
  rw [decode_mk (header_three .lessThan rfl a.mode b.mode dst.mode (mode_ne_of_writable h))]
  rfl

theorem equals (a b dst : Param) : Statement (.equals a b dst) := by
  intro h rest
  simp only [Instr.encode, Instr.wordValue, canonicalWord, Instr.opcode, Instr.params, List.map, List.cons_append,
    List.nil_append, Cells.ofList]
  rw [decode_mk (header_three .equals rfl a.mode b.mode dst.mode (mode_ne_of_writable h))]
  rfl

theorem jumpIfTrue (test target : Param) : Statement (.jumpIfTrue test target) := by
  rintro - (_ | ⟨_, _⟩)
  all_goals
    simp only [Instr.encode, Instr.wordValue, canonicalWord, Instr.opcode, Instr.params, List.map, List.cons_append,
      List.nil_append, Cells.ofList]
    rw [decode_mk (header_two .jumpIfTrue rfl test.mode target.mode)]
    rfl

theorem jumpIfFalse (test target : Param) : Statement (.jumpIfFalse test target) := by
  rintro - (_ | ⟨_, _⟩)
  all_goals
    simp only [Instr.encode, Instr.wordValue, canonicalWord, Instr.opcode, Instr.params, List.map, List.cons_append,
      List.nil_append, Cells.ofList]
    rw [decode_mk (header_two .jumpIfFalse rfl test.mode target.mode)]
    rfl

theorem input (dst : Param) : Statement (.input dst) := by
  rintro h (_ | ⟨_, _ | ⟨_, _⟩⟩)
  all_goals
    simp only [Instr.encode, Instr.wordValue, canonicalWord, Instr.opcode, Instr.params, List.map, List.cons_append,
      List.nil_append, Cells.ofList]
    rw [decode_mk (header_one .input rfl dst.mode fun _ => mode_ne_of_writable h)]
    rfl

theorem output (v : Param) : Statement (.output v) := by
  rintro - (_ | ⟨_, _ | ⟨_, _⟩⟩)
  all_goals
    simp only [Instr.encode, Instr.wordValue, canonicalWord, Instr.opcode, Instr.params, List.map, List.cons_append,
      List.nil_append, Cells.ofList]
    rw [decode_mk (header_one .output rfl v.mode fun h => nomatch h)]
    rfl

theorem adjustRelativeBase (v : Param) : Statement (.adjustRelativeBase v) := by
  rintro - (_ | ⟨_, _ | ⟨_, _⟩⟩)
  all_goals
    simp only [Instr.encode, Instr.wordValue, canonicalWord, Instr.opcode, Instr.params, List.map, List.cons_append,
      List.nil_append, Cells.ofList]
    rw [decode_mk (header_one .adjustRelativeBase rfl v.mode fun h => nomatch h)]
    rfl

theorem halt : Statement .halt := by
  rintro - (_ | ⟨_, _ | ⟨_, _ | ⟨_, _⟩⟩⟩)
  all_goals
    simp only [Instr.encode, Instr.wordValue, canonicalWord, Instr.opcode, Instr.params, List.map, List.cons_append,
      List.nil_append, Cells.ofList]
    rw [decode_mk header_zero]
    rfl

end Sys2Proof.Laws.RoundTrip
end

