-- ==== Sys2Proof/Tests/Slice0.lean ====
section
/-! SUPPORT. Tests of the model against spec/95_test_vectors.md and the examples of the rules (the expected results are the
spec's), and for every statement with hypotheses a concrete state and operands that meet them all. -/

namespace Sys2Proof.Tests

open Sys2Proof Sys2Proof.Machine

/-- The next state of an outcome. -/
def after : Result → Option State
  | .next t => some t
  | .fault _ => none
  | .refused _ => none

/-- The state after one step from the load of a program with an input queue. -/
def stepped (program input : List Word) : Option State := after (step (load program input))

def maxWord : Word := 9223372036854775807
def minWord : Word := -9223372036854775808

/-! ### Well-formedness: one ill-formed term for each check (R60) -/

theorem test_wf_add_refuses : (Instr.add ⟨.position, 1⟩ ⟨.position, 2⟩ ⟨.immediate, 3⟩).wellFormed = false := by decide
theorem test_wf_multiply_refuses : (Instr.multiply ⟨.position, 1⟩ ⟨.position, 2⟩ ⟨.immediate, 3⟩).wellFormed = false := by decide
theorem test_wf_input_refuses : (Instr.input ⟨.immediate, 3⟩).wellFormed = false := by decide
theorem test_wf_lessThan_refuses : (Instr.lessThan ⟨.position, 1⟩ ⟨.position, 2⟩ ⟨.immediate, 3⟩).wellFormed = false := by decide
theorem test_wf_equals_refuses : (Instr.equals ⟨.position, 1⟩ ⟨.position, 2⟩ ⟨.immediate, 3⟩).wellFormed = false := by decide
theorem test_wf_accepts : (Instr.add ⟨.immediate, 1⟩ ⟨.immediate, 2⟩ ⟨.relative, 3⟩).wellFormed = true := by decide

/-! ### Decoding: a word of every instruction, from the encodings of R53 and the programs of 95_test_vectors.md -/

theorem test_decode_add : decode ⟨2201, 0, 1, 7⟩ = .ok (.add ⟨.relative, 0⟩ ⟨.relative, 1⟩ ⟨.position, 7⟩) := by decide
theorem test_decode_multiply : decode ⟨1002, 4, 3, 4⟩ = .ok (.multiply ⟨.position, 4⟩ ⟨.immediate, 3⟩ ⟨.position, 4⟩) := by decide
theorem test_decode_input : decode ⟨203, 1, 99, 9⟩ = .ok (.input ⟨.relative, 1⟩) := by decide
theorem test_decode_output : decode ⟨104, -5, 99, 0⟩ = .ok (.output ⟨.immediate, -5⟩) := by decide
theorem test_decode_jumpIfTrue : decode ⟨2105, 1, 1, 99⟩ = .ok (.jumpIfTrue ⟨.immediate, 1⟩ ⟨.relative, 1⟩) := by decide
theorem test_decode_jumpIfFalse : decode ⟨1006, 22, 14, 4⟩ = .ok (.jumpIfFalse ⟨.position, 22⟩ ⟨.immediate, 14⟩) := by decide
theorem test_decode_lessThan : decode ⟨7, 20, 21, 22⟩ = .ok (.lessThan ⟨.position, 20⟩ ⟨.position, 21⟩ ⟨.position, 22⟩) := by decide
theorem test_decode_equals : decode ⟨1008, 100, 16, 101⟩ = .ok (.equals ⟨.position, 100⟩ ⟨.immediate, 16⟩ ⟨.position, 101⟩) := by decide
theorem test_decode_adjustRelativeBase : decode ⟨209, -7, 99, 0⟩ = .ok (.adjustRelativeBase ⟨.relative, -7⟩) := by decide
theorem test_decode_halt : decode ⟨22299, 1, 2, 3⟩ = .ok .halt := by decide

/-- V-D1 to V-D3: unknown opcodes. -/
theorem test_decode_unknown : decode ⟨0, 0, 0, 0⟩ = .error .unknownOpcode ∧ decode ⟨10, 0, 0, 0⟩ = .error .unknownOpcode ∧
    decode ⟨98, 0, 0, 0⟩ = .error .unknownOpcode ∧ decode ⟨1100, 1, 1, 1⟩ = .error .unknownOpcode ∧
    decode ⟨-1, 0, 0, 0⟩ = .error .unknownOpcode := by decide

/-- V-D4 to V-D6, V-D11, V-D12, V-D14: undefined mode digits, the lowest parameter first. -/
theorem test_decode_invalid_mode : decode ⟨304, 0, 99, 0⟩ = .error (.invalidMode 1) ∧
    decode ⟨9001, 0, 0, 0⟩ = .error (.invalidMode 2) ∧ decode ⟨30001, 0, 0, 0⟩ = .error (.invalidMode 3) ∧
    decode ⟨10305, 0, 0, 99⟩ = .error (.invalidMode 1) ∧ decode ⟨11301, 0, 0, 0⟩ = .error (.invalidMode 1) ∧
    decode ⟨9223372036854775807, 0, 0, 0⟩ = .error (.invalidMode 1) := by decide

/-- V-D7, V-D10: Immediate write parameters. -/
theorem test_decode_invalid_write : decode ⟨103, 0, 99, 0⟩ = .error (.invalidWriteTarget 1) ∧
    decode ⟨11102, 2, 3, 0⟩ = .error (.invalidWriteTarget 3) ∧ decode ⟨11107, 2, 3, 0⟩ = .error (.invalidWriteTarget 3) ∧
    decode ⟨10008, 2, 3, 0⟩ = .error (.invalidWriteTarget 3) ∧ decode ⟨10001, -1, 0, 0⟩ = .error (.invalidWriteTarget 3) := by
  decide

/-- The encoding of 45_relative_base.md's and V-A7's instructions. -/
theorem test_encode : (Instr.add ⟨.immediate, 3⟩ ⟨.immediate, 4⟩ ⟨.relative, 5⟩).encode = [21101, 3, 4, 5] ∧
    (Instr.adjustRelativeBase ⟨.relative, 5⟩).encode = [209, 5] ∧ Instr.halt.encode = [99] := by decide

/-! ### One step of each instruction -/

/-- V-A1. -/
theorem test_add : (stepped [1, 5, 6, 7, 99, 20, 22, 0] []).map (fun t => (t.memRead 7, t.ip)) = some (42, 4) := by decide
/-- V-V1: the sum wraps, with no fault. -/
theorem test_add_wraps :
    (stepped [1101, maxWord, 1, 5, 99, 0] []).map (fun t => (t.memRead 5, t.fault)) = some (minWord, none) := by decide
/-- V-A6. -/
theorem test_multiply : (stepped [1102, -7, 6, 5, 99, 0] []).map (fun t => (t.memRead 5, t.ip)) = some (-42, 4) := by decide
/-- V-V6. -/
theorem test_multiply_wraps : (stepped [1102, minWord, -1, 5, 99, 0] []).map (fun t => t.memRead 5) = some minWord := by decide
/-- V-I4: the destination is the instruction's own word. -/
theorem test_input : (stepped [3, 0, 99] [1234]).map (fun t => (t.memRead 0, t.ip, t.iq)) = some (1234, 2, []) := by decide
/-- V-I7, second run: a faulting Input pops nothing. -/
theorem test_input_fault : (stepped [3, -1, 99] [5]).map (fun t => (t.fault, t.iq, t.ip, t.status)) =
    some (some (.invalidAddress (-1) 0), [5], 0, .running) := by decide
/-- V-I7, first run: a bad destination blocks while the queue is empty. -/
theorem test_input_blocks :
    (stepped [3, -1, 99] []).map (fun t => (t.status, t.ip, t.fault)) = some (.waitingForInput, 0, none) := by decide
/-- V-O6: a parameter beyond the extent reads as 0, and the extent does not grow. -/
theorem test_output : (stepped [4] []).map (fun t => (t.ob, t.len, t.ip)) = some ([4], 1, 2) := by decide
/-- V-O1. -/
theorem test_output_negative : (stepped [4, 3, 99, -17] []).map (fun t => t.ob) = some [-17] := by decide
/-- V-J3: a negative value is true. -/
theorem test_jumpIfTrue : (stepped [1105, -1, 4, 99, 104, 5, 99] []).map (fun t => t.ip) = some 4 := by decide
/-- V-J10: the target of a jump not taken is resolved. -/
theorem test_jumpIfTrue_eager : (stepped [5, 9, -1, 99, 0, 0, 0, 0, 0, 0] []).map (fun t => (t.ip, t.fault)) =
    some (0, some (.invalidAddress (-1) 0)) := by decide
/-- V-J4. -/
theorem test_jumpIfFalse : (stepped [1106, 0, 4, 99, 104, 5, 99] []).map (fun t => t.ip) = some 4 := by decide
/-- V-J5: not taken. -/
theorem test_jumpIfFalse_falls : (stepped [1106, 3, 4, 99, 104, 5, 99] []).map (fun t => t.ip) = some 3 := by decide
/-- V-C4: signed, exact. -/
theorem test_lessThan : (stepped [1107, minWord, maxWord, 5, 99, -1] []).map (fun t => t.memRead 5) = some 1 := by decide
/-- V-C3. -/
theorem test_lessThan_equal : (stepped [1107, 5, 5, 5, 99, -1] []).map (fun t => t.memRead 5) = some 0 := by decide
/-- V-C11. -/
theorem test_equals : (stepped [1108, 1, -1, 5, 99, -1] []).map (fun t => t.memRead 5) = some 0 := by decide
/-- V-C12: the source is the destination. -/
theorem test_equals_not : (stepped [1008, 5, 0, 5, 99, 0] []).map (fun t => t.memRead 5) = some 1 := by decide
/-- V-R10: the operand is fetched with the old relative base. -/
theorem test_adjustRelativeBase :
    (after (step { load [209, 5, 0, 0, 0, 0, 0, 0, 0, 0, 0, 0, 0, 0, 0, 7] [] with rb := 10 })).map (fun t => (t.rb, t.ip)) =
      some (17, 2) := by decide
/-- V-R5, second step: the register wraps. -/
theorem test_adjustRelativeBase_wraps :
    (after (step { load [109, 1] [] with rb := maxWord })).map (fun t => (t.rb, t.fault)) = some (minWord, none) := by decide
/-- V-T1. -/
theorem test_halt : (stepped [99] []).map (fun t => (t.status, t.ip, t.fault)) = some (.halted, 0, none) := by decide
/-- V-T4, V-T5: the implicit halt, at the extent. -/
theorem test_implicit_halt : (stepped [] []).map (fun t => t.status) = some .halted ∧
    (after (step { load [2, 1, 1, 0] [] with ip := 4 })).map (fun t => (t.status, t.ip)) = some (.halted, 4) := by decide
/-- V-J9, second step: a negative `ip` faults at fetch. -/
theorem test_fetch_negative : (after (step { load [1105, 1, -7] [] with ip := -7 })).map (fun t => (t.fault, t.ip)) =
    some (some (.invalidAddress (-7) (-7)), -7) := by decide
/-- V-R7, second step: the address sum does not wrap. -/
theorem test_relative_exact : (after (step { load [109, maxWord, 204, 1, 99] [] with ip := 2, rb := maxWord })).map (fun t => t.fault) =
    some (some (.invalidAddress 9223372036854775808 2)) := by decide
/-- V-T9, last step: the advance check. -/
theorem test_advance_check :
    (after (step { (load [] []).memWrite 9223372036854775805 1101 with ip := 9223372036854775805 })).map (fun t => t.fault) =
      some (some (.invalidAddress 9223372036854775809 9223372036854775805)) := by decide
/-- V-D1, V-D8: the records latched by a step. -/
theorem test_records : (stepped [0] []).map (fun t => t.fault) = some (some (.unknownOpcode 0 0)) ∧
    (stepped [103, 0, 99] []).map (fun t => t.fault) = some (some (.invalidWriteTarget 103 0 1)) := by decide
/-- V-D13: operand addresses in parameter order. -/
theorem test_operand_order : (stepped [1, -1, -2, -3] []).map (fun t => t.fault) = some (some (.invalidAddress (-1) 0)) := by decide
/-- The codes of R15 and R140. -/
theorem test_codes : (Status.running.code, Status.waitingForInput.code, Status.halted.code) = (0, 1, 2) ∧
    ((FaultRecord.unknownOpcode 0 0).code, (FaultRecord.invalidAddress 0 0).code, (FaultRecord.invalidWriteTarget 0 0 1).code,
      (FaultRecord.invalidMode 0 0 1).code) = (1, 2, 3, 4) := by decide

/-! ### The host -/

/-- V-H1: draining twice, and the newest element. -/
theorem test_output_transactions : (readOutput { State.reset with ob := [1, 2, 3] }).1 = [1, 2, 3] ∧
    lastOutput { State.reset with ob := [1, 2, 3] } = some 3 ∧ lastOutput State.reset = none := by decide
/-- V-H5, V-H10. -/
theorem test_poke : poke (-1) 5 (load [1, 0, 0, 0, 99] []) = none ∧
    (poke 9 4 (load [1, 0, 0, 0, 99] [])).map memorySnapshot = some [1, 0, 0, 0, 99, 0, 0, 0, 0, 4] := by decide
/-- V-H3, V-H4, V-H7: runs that execute nothing new. -/
theorem test_run_stopped : runFor 1 { load [3, 0, 4, 0, 99] [] with status := .waitingForInput } =
      (some .blocked, { load [3, 0, 4, 0, 99] [] with status := .waitingForInput }) ∧
    runFor 1 { load [99] [5] with status := .halted } = (some .halted, { load [99] [5] with status := .halted }) ∧
    runFor 1 { load [0] [1] with fault := some (.unknownOpcode 0 0) } =
      (some (.faulted (.unknownOpcode 0 0)), { load [0] [1] with fault := some (.unknownOpcode 0 0) }) := by decide
/-- V-H8: a poked word is what the retried step fetches. -/
theorem test_run_refetches :
    (runFor 1 { load [99, 0, 4, 0, 99] [42] with status := .waitingForInput }).1 = some .halted := by decide
/-- Refusals of moves out of turn (93 U9, U10). -/
theorem test_moves_refused : hostMove .readOutput .unloaded = .error .notLoaded ∧
    hostMove (.poke 0 1) (.inRun State.reset) = .error .runInProgress := by decide

/-! ### Opcode-table words -/

theorem test_table_words :
    [1, 2, 3, 4, 5, 6, 7, 8, 9, 99].map (fun w => (decodeTableWord 8 w).map Instr.opcode) =
      [some .add, some .multiply, some .input, some .output, some .jumpIfTrue, some .jumpIfFalse, some .lessThan, some .equals,
        some .adjustRelativeBase, some .halt] := by decide
theorem test_table_word_runs :
    (after (step (State.reset.withFetchWord 8 4))).map (fun t => (t.ob, t.ip)) = some ([4], 2) ∧
      (after (step (State.reset.withFetchWord 8 1))).map (fun t => (t.memRead 0, t.ip)) = some (2, 4) := by decide

/-! ### Witnesses: for each statement with hypotheses, states and operands that meet them, at the ends of their ranges -/

theorem next_of_after {o : Result} {t : State} (h : after o = some t) : o = .next t := by
  cases o with
  | next u => exact congrArg _ (Option.some.inj h)
  | fault r => cases h
  | refused r => cases h

/-- An Add whose sources are cells 5 and 6 and whose destination is cell 7, at address 0. -/
def addState : State := load [1, 5, 6, 7, 99, 20, 22, 0] []
/-- The highest cells hold code: `ip` is three below MAXADDR. -/
def topState : State := { (load [] []).memWrite 9223372036854775804 1101 with ip := 9223372036854775804 }
/-- A relative base at the top of its range. -/
def highBase : State := { addState with rb := maxWord }

theorem witness_DecodeInvertsEncode : (Instr.equals ⟨.relative, minWord⟩ ⟨.immediate, maxWord⟩ ⟨.relative, -1⟩).wellFormed = true := by
  decide
theorem witness_DecodedIsCanonical : decode ⟨99204, 2, 0, 0⟩ = .ok (.output ⟨.relative, 2⟩) := by decide
theorem witness_UnusedDigitsIgnored : 0 ≤ (204 : Word).toInt ∧ 0 ≤ (99204 : Word).toInt ∧
    opcodeDigits (204 : Word).toNat = Opcode.output.number ∧
    (204 : Word).toNat % 10 ^ (Opcode.output.nparams + 2) = (99204 : Word).toNat % 10 ^ (Opcode.output.nparams + 2) := by decide

theorem fetchesWord_load (w : Word) (l : List Word) : (load (w :: l) []).FetchesWord :=
  ⟨⟨rfl, rfl⟩, (by decide : 0 ≤ (0 : Word).toInt), Nat.succ_pos _⟩

theorem witness_UnknownOpcodeFaults :
    ((load [-1] []).FetchesWord ∧ (load [-1] []).word.toInt < 0) ∧
    ((load [0] []).FetchesWord ∧ (load [0] []).word.toNat % 100 = 0) ∧
    ((load [10] []).FetchesWord ∧ 10 ≤ (load [10] []).word.toNat % 100 ∧ (load [10] []).word.toNat % 100 ≤ 98) ∧
    ((load [98] []).FetchesWord ∧ 10 ≤ (load [98] []).word.toNat % 100 ∧ (load [98] []).word.toNat % 100 ≤ 98) :=
  ⟨⟨fetchesWord_load _ _, by decide⟩, ⟨fetchesWord_load _ _, by decide⟩, ⟨fetchesWord_load _ _, by decide⟩,
    ⟨fetchesWord_load _ _, by decide⟩⟩
theorem witness_InvalidModeFaults :
    ((load [304] []).FetchesWord ∧ 0 ≤ (load [304] []).word.toInt ∧ (load [304] []).word.toNat % 100 = Opcode.output.number ∧
      1 ≤ Opcode.output.nparams ∧ 3 ≤ digit (load [304] []).word.toNat 2) ∧
    ((load [90001] []).FetchesWord ∧ 0 ≤ (load [90001] []).word.toInt ∧
      (load [90001] []).word.toNat % 100 = Opcode.add.number ∧ 3 ≤ Opcode.add.nparams ∧
      3 ≤ digit (load [90001] []).word.toNat 4 ∧ ∀ j < 3, digit (load [90001] []).word.toNat (j + 1) < 3) :=
  ⟨⟨fetchesWord_load _ _, by decide⟩, fetchesWord_load _ _, by decide⟩
theorem witness_InvalidWriteTargetFaults :
    ((load [103] []).FetchesWord ∧ 0 ≤ (load [103] []).word.toInt ∧ (load [103] []).word.toNat % 100 = Opcode.input.number ∧
      Opcode.input.wparam = some 1 ∧ digit (load [103] []).word.toNat 2 = 1) ∧
    ((load [10001] []).FetchesWord ∧ 0 ≤ (load [10001] []).word.toInt ∧
      (load [10001] []).word.toNat % 100 = Opcode.add.number ∧ Opcode.add.wparam = some 3 ∧
      digit (load [10001] []).word.toNat 4 = 1 ∧ ∀ j < 3, digit (load [10001] []).word.toNat (j + 1) < 3) :=
  ⟨⟨fetchesWord_load _ _, by decide⟩, fetchesWord_load _ _, by decide⟩

theorem witness_StepRunsDecoded : addState.fault = none ∧ addState.status = .running ∧ 0 ≤ addState.ip.toInt ∧
    addState.ip.toNat < addState.len ∧ decode ⟨addState.mem.read 0, addState.mem.read 1, addState.mem.read 2,
      addState.mem.read 3⟩ = .ok (.add ⟨.position, 5⟩ ⟨.position, 6⟩ ⟨.position, 7⟩) := by decide
theorem witness_NegativeIpFaults : (({ addState with ip := -1 } : State).Active ∧ (-1 : Word).toInt < 0) ∧
    (addState.Active ∧ addState.ip.toInt + 3 ≤ Config.maxAddr ∧ addState.readValue ⟨.immediate, 1⟩ = .ok 1 ∧
      addState.readValue ⟨.immediate, 0⟩ = .ok 0 ∧ addState.readValue ⟨.immediate, minWord⟩ = .ok minWord ∧
      minWord.toInt < 0) :=
  ⟨⟨⟨rfl, rfl⟩, by decide⟩, ⟨rfl, rfl⟩, by decide⟩
theorem witness_ImplicitHaltAtExtent : State.reset.Active ∧ 0 ≤ State.reset.ip.toInt ∧ State.reset.len ≤ State.reset.ip.toNat :=
  ⟨⟨rfl, rfl⟩, by decide⟩
theorem witness_AdvanceOutOfRangeFaults :
    (topState.fault = none ∧ Config.maxAddr < topState.ip.toInt + (Instr.add ⟨.immediate, 1⟩ ⟨.immediate, 1⟩ ⟨.position, 0⟩).size) ∧
    (0 ≤ topState.ip.toInt ∧ topState.ip.toInt + (3 : Nat) ≤ Config.maxAddr) := by decide
/-- Each of the four ways is taken by some active state. -/
theorem witness_StepEndsInFourWays : State.reset.Active ∧
    step (load [104, 7] []) = .next { load [104, 7] [] with ob := [7], ip := 2 } ∧
    step (load [99] []) = .next { load [99] [] with status := .halted } ∧
    step (load [3, 0] []) = .next { load [3, 0] [] with status := .waitingForInput } ∧
    step (load [0] []) = .next { load [0] [] with fault := some (.unknownOpcode 0 0) } :=
  ⟨⟨rfl, rfl⟩, next_of_after (by decide), next_of_after (by decide), next_of_after (by decide), next_of_after (by decide)⟩
theorem witness_FaultsArePrecise : (load [0] []).fault = none ∧
    step (load [0] []) = .next { load [0] [] with fault := some (.unknownOpcode 0 0) } :=
  ⟨rfl, next_of_after (by decide)⟩
theorem witness_StoppedCoreExecutesNothing :
    ({ addState with fault := some (.unknownOpcode 0 0) } : State).fault = some (.unknownOpcode 0 0) ∧
    ({ addState with status := .halted } : State).fault = none ∧ ({ addState with status := .halted } : State).status ≠ .running ∧
    ({ addState with status := .waitingForInput } : State).status ≠ .running := by decide

/-- The ends of the ranges of R78 and R79: addresses 0, MAXADDR, -1 and 2^63. -/
theorem witness_ReadValueByMode : 0 ≤ (0 : Word).toInt ∧ 0 ≤ maxWord.toInt ∧ (-1 : Word).toInt < 0 ∧
    0 ≤ highBase.rb.toInt + (0 : Word).toInt ∧ highBase.rb.toInt + (0 : Word).toInt ≤ 2 ^ 63 - 1 ∧
    2 ^ 63 - 1 < highBase.rb.toInt + (1 : Word).toInt ∧ addState.rb.toInt + (-1 : Word).toInt < 0 := by decide
theorem witness_WriteAddrByMode : 0 ≤ (0 : Word).toInt ∧ 0 ≤ maxWord.toInt ∧ minWord.toInt < 0 ∧
    0 ≤ highBase.rb.toInt + (-9223372036854775807 : Word).toInt ∧
    highBase.rb.toInt + (-9223372036854775807 : Word).toInt ≤ 2 ^ 63 - 1 ∧
    2 ^ 63 - 1 < highBase.rb.toInt + (1 : Word).toInt ∧ highBase.rb.toInt + minWord.toInt < 0 := by decide
/-- Each of the three operands is the one that does not resolve. -/
theorem witness_ComputeOperandFaults : addState.fault = none ∧ addState.ip.toInt + 4 ≤ Config.maxAddr ∧
    addState.readValue ⟨.position, -1⟩ = .error (.invalidAddress (-1) 0) ∧
    addState.readValue ⟨.position, 5⟩ = .ok 20 ∧ addState.readValue ⟨.relative, 6⟩ = .ok 22 ∧
    addState.writeAddr 3 ⟨.relative, -2⟩ = .error (.invalidAddress (-2) 0) := by decide
theorem witness_JumpOperandFaults : addState.fault = none ∧ addState.ip.toInt + 3 ≤ Config.maxAddr ∧
    addState.readValue ⟨.position, -1⟩ = .error (.invalidAddress (-1) 0) ∧
    addState.readValue ⟨.immediate, 0⟩ = .ok 0 ∧ addState.readValue ⟨.relative, -2⟩ = .error (.invalidAddress (-2) 0) := by decide
theorem witness_SingleOperandFaults : addState.fault = none ∧ addState.ip.toInt + 2 ≤ Config.maxAddr ∧
    addState.readValue ⟨.position, -1⟩ = .error (.invalidAddress (-1) 0) ∧
    (load [3, -1] [5]).fault = none ∧ (load [3, -1] [5]).ip.toInt + 2 ≤ Config.maxAddr ∧ (load [3, -1] [5]).iq ≠ [] ∧
    (load [3, -1] [5]).writeAddr 1 ⟨.position, -1⟩ = .error (.invalidAddress (-1) 0) := by decide

/-- The operands of the four three-operand instructions, in every mode each admits, and at the last `ip` that passes the
advance check. -/
theorem witness_AddResult : addState.ip.toInt + 4 ≤ Config.maxAddr ∧ addState.readValue ⟨.position, 5⟩ = .ok 20 ∧
    addState.readValue ⟨.immediate, maxWord⟩ = .ok maxWord ∧ addState.writeAddr 3 ⟨.relative, 7⟩ = .ok 7 := by decide
theorem witness_MultiplyResult : addState.ip.toInt + 4 ≤ Config.maxAddr ∧ addState.readValue ⟨.immediate, minWord⟩ = .ok minWord ∧
    addState.readValue ⟨.relative, 6⟩ = .ok 22 ∧ addState.writeAddr 3 ⟨.position, maxWord⟩ = .ok 9223372036854775807 := by decide
theorem witness_LessThanResult : ({ addState with ip := 9223372036854775803 } : State).ip.toInt + 4 ≤ Config.maxAddr ∧
    addState.readValue ⟨.position, 5⟩ = .ok 20 ∧ addState.readValue ⟨.position, 100⟩ = .ok 0 ∧
    addState.writeAddr 3 ⟨.position, 0⟩ = .ok 0 := by decide
theorem witness_EqualsResult : addState.ip.toInt + 4 ≤ Config.maxAddr ∧ addState.readValue ⟨.relative, 5⟩ = .ok 20 ∧
    addState.readValue ⟨.immediate, 20⟩ = .ok 20 ∧ addState.writeAddr 3 ⟨.position, 5⟩ = .ok 5 := by decide
theorem witness_InputTakesOldest : (load [3, 5] [11, 12]).ip.toInt + 2 ≤ Config.maxAddr ∧
    (load [3, 5] [11, 12]).iq = 11 :: [12] ∧ (load [3, 5] [11, 12]).writeAddr 1 ⟨.position, 5⟩ = .ok 5 := by decide
theorem witness_EmptyQueueBlocks : ((load [3, 5] []).ip.toInt + 2 ≤ Config.maxAddr ∧ (load [3, 5] []).iq = []) ∧
    (load [3, 5] []).status = .running ∧
    exec (.input ⟨.position, 5⟩) (load [3, 5] []) = .next { load [3, 5] [] with status := .waitingForInput } :=
  ⟨by decide, rfl, next_of_after (by decide)⟩
theorem witness_OutputResult : addState.ip.toInt + 2 ≤ Config.maxAddr ∧ addState.readValue ⟨.position, 5⟩ = .ok 20 := by decide
/-- A test that is taken (-1), one that is not (0), and a negative target. -/
theorem witness_JumpIfTrueResult : addState.ip.toInt + 3 ≤ Config.maxAddr ∧ addState.readValue ⟨.immediate, -1⟩ = .ok (-1) ∧
    addState.readValue ⟨.immediate, 0⟩ = .ok 0 ∧ addState.readValue ⟨.immediate, -7⟩ = .ok (-7) := by decide
theorem witness_JumpIfFalseResult : addState.ip.toInt + 3 ≤ Config.maxAddr ∧ addState.readValue ⟨.position, 7⟩ = .ok 0 ∧
    addState.readValue ⟨.position, 5⟩ = .ok 20 ∧ addState.readValue ⟨.relative, 6⟩ = .ok 22 := by decide
theorem witness_AdjustRelativeBaseResult : highBase.ip.toInt + 2 ≤ Config.maxAddr ∧ highBase.readValue ⟨.immediate, 1⟩ = .ok 1 := by
  decide

theorem witness_WriteThenRead : addState.mem.wf ∧ addState.len ≤ 8 ∧ 7 < addState.len := by decide

theorem addState_sound : addState.Sound := ⟨by decide, by decide, by decide, by decide⟩
theorem witness_BeyondExtentReadsZero : addState.Sound ∧ addState.len ≤ 8 := ⟨addState_sound, by decide⟩
/-- A destination that resolves, one that does not, and one below the extent. -/
theorem witness_ComputeFrame : addState.mem.wf ∧
    (∃ t, exec (.add ⟨.position, 5⟩ ⟨.position, 6⟩ ⟨.position, 7⟩) addState = .next t) ∧
    addState.writeAddr 3 ⟨.position, 7⟩ = .ok 7 ∧ 7 < addState.len ∧
    (∃ t, exec (.add ⟨.position, 5⟩ ⟨.position, 6⟩ ⟨.position, -1⟩) addState = .next t) ∧
    addState.writeAddr 3 ⟨.position, -1⟩ = .error (.invalidAddress (-1) 0) :=
  ⟨by decide, exec_total _ _, by decide, by decide, exec_total _ _, by decide⟩
theorem witness_InputFrame : (load [3, 1] [5]).mem.wf ∧ (∃ t, exec (.input ⟨.position, 1⟩) (load [3, 1] [5]) = .next t) ∧
    (load [3, 1] [5]).writeAddr 1 ⟨.position, 1⟩ = .ok 1 ∧ 1 < (load [3, 1] [5]).len ∧ (load [3, 1] [5]).iq ≠ [] ∧
    (∃ t, exec (.input ⟨.position, -1⟩) (load [3, -1] []) = .next t) ∧ (load [3, -1] []).iq = [] ∧
    (load [3, -1] []).writeAddr 1 ⟨.position, -1⟩ = .error (.invalidAddress (-1) 0) :=
  ⟨by decide, exec_total _ _, by decide, by decide, by decide, exec_total _ _, by decide, by decide⟩
theorem witness_NoStoreFrame : (∃ t, exec (.output ⟨.position, 5⟩) addState = .next t) ∧
    (∃ t, exec (.jumpIfTrue ⟨.position, 5⟩ ⟨.immediate, 4⟩) addState = .next t) ∧
    (∃ t, exec (.jumpIfFalse ⟨.position, 5⟩ ⟨.immediate, 4⟩) addState = .next t) ∧
    (∃ t, exec (.adjustRelativeBase ⟨.position, 5⟩) addState = .next t) ∧ ∃ t, exec .halt addState = .next t :=
  ⟨exec_total _ _, exec_total _ _, exec_total _ _, exec_total _ _, exec_total _ _⟩

theorem witness_StepKeepsSound : addState.Sound ∧
    step addState = .next { addState with mem := addState.mem.write 7 42, ip := 4 } :=
  ⟨addState_sound, next_of_after (by decide)⟩
theorem witness_ResetAndLoadAreSound : ([1, 0, 0, 0, 99] : List Word).length ≤ 2 ^ 63 := by decide
theorem witness_MovesKeepSound : (Phase.idle addState).Sound ∧
    hostMove .run (.idle addState) = .ok (.started, .inRun addState) ∧
    (Phase.inRun addState).Sound ∧ ∃ a q, coreMove (.inRun addState) = .ok (a, q) :=
  ⟨addState_sound, by decide, ⟨addState_sound, rfl, rfl⟩, none, .inRun { addState with mem := addState.mem.write 7 42, ip := 4 },
    by decide⟩
theorem witness_OnlyAdjustWritesRb : step (load [109, 5] []) = .next { load [109, 5] [] with rb := 5, ip := 2 } ∧
    ({ load [109, 5] [] with rb := 5, ip := 2 } : State).rb ≠ (load [109, 5] []).rb :=
  ⟨next_of_after (by decide), by decide⟩
/-- A fault, a halt, an advance and a taken jump. -/
theorem witness_IpGoesWhereTheRuleSays : addState.Active ∧
    exec (.output ⟨.position, -1⟩) addState = .next { addState with fault := some (.invalidAddress (-1) 0) } ∧
    exec .halt addState = .next { addState with status := .halted } ∧
    exec (.output ⟨.position, 5⟩) addState = .next { addState with ob := [20], ip := 2 } ∧
    exec (.jumpIfTrue ⟨.position, 5⟩ ⟨.immediate, -7⟩) addState = .next { addState with ip := -7 } :=
  ⟨⟨rfl, rfl⟩, next_of_after (by decide), next_of_after (by decide), next_of_after (by decide), next_of_after (by decide)⟩
theorem witness_ExtentAndQueueDiscipline :
    step (load [3, 5] [11, 12]) = .next { load [3, 5] [11, 12] with mem := (load [3, 5] []).mem.write 5 11, len := 6, ip := 2, iq := [12] } :=
  next_of_after (by decide)
theorem witness_StatusTransitions :
    (step (load [3, 0] []) = .next { load [3, 0] [] with status := .waitingForInput }) ∧
    (step (load [99] []) = .next { load [99] [] with status := .halted }) ∧
    (step State.reset = .next { State.reset with status := .halted }) ∧ Status.waitingForInput ≠ .running ∧ Status.halted ≠ .running :=
  ⟨next_of_after (by decide), next_of_after (by decide), next_of_after (by decide), by decide, by decide⟩
theorem witness_RbMattersOnlyToRelative :
    (∀ p ∈ (Instr.add ⟨.position, 5⟩ ⟨.immediate, 6⟩ ⟨.position, 7⟩).params, p.mode ≠ .relative) ∧
    (Instr.add ⟨.position, 5⟩ ⟨.immediate, 6⟩ ⟨.position, 7⟩).opcode ≠ .adjustRelativeBase ∧
    ∃ t, exec (.add ⟨.position, 5⟩ ⟨.immediate, 6⟩ ⟨.position, 7⟩) addState = .next t :=
  ⟨by decide, by decide, exec_total _ _⟩
theorem witness_OutputBufferNeverRead :
    step { load [104, 7] [] with ob := [1] } = .next { load [104, 7] [] with ob := [1, 7], ip := 2 } :=
  next_of_after (by decide)
theorem witness_CoreInRunAlwaysMoves : (Phase.inRun addState).Sound := ⟨addState_sound, rfl, rfl⟩

theorem witness_RunOnStoppedCore :
    ({ addState with fault := some (.unknownOpcode 0 0) } : State).fault = some (.unknownOpcode 0 0) ∧
    ({ addState with status := .halted } : State).fault = none ∧ ({ addState with status := .halted } : State).status = .halted := by
  decide
/-- The state in which the spec's S4 blocks. -/
def blocked : State := { load [3, 0, 4, 0, 99] [] with status := .waitingForInput }
theorem witness_RunOnWaitingCoreBlocksAgain : blocked.fault = none ∧ blocked.status = .waitingForInput ∧ blocked.iq = [] ∧
    blocked.Fetches (.input ⟨.position, 0⟩) ∧ blocked.ip.toInt + 2 ≤ Config.maxAddr :=
  ⟨rfl, rfl, rfl, ⟨by decide, by decide, by decide⟩, by decide⟩
/-- Each way of ending is met. -/
theorem witness_RunEndsAreVisible :
    runFor 1 (load [99] []) = (some .halted, { load [99] [] with status := .halted }) ∧
    runFor 1 (load [3, 0] []) = (some .blocked, { load [3, 0] [] with status := .waitingForInput }) ∧
    runFor 1 (load [0] []) =
      (some (.faulted (.unknownOpcode 0 0)), { load [0] [] with fault := some (.unknownOpcode 0 0) }) := by decide
theorem witness_BudgetDoesNotMatter : runFor 1 (load [99] []) = (some .halted, { load [99] [] with status := .halted }) ∧ 1 ≤ 2 := by
  decide
/-- The spec's V-J12, and its JumpIfFalse form. -/
theorem witness_JumpToItselfNeverEnds :
    ((load [1105, 1, 0] []).Active ∧
      (load [1105, 1, 0] []).Fetches (.jumpIfTrue ⟨.immediate, 1⟩ ⟨.immediate, 0⟩) ∧ (1 : Word) ≠ 0 ∧
      (load [1105, 1, 0] []).ip.toInt + 3 ≤ Config.maxAddr ∧ (load [1105, 1, 0] []).readValue ⟨.immediate, 1⟩ = .ok 1 ∧
      (load [1105, 1, 0] []).readValue ⟨.immediate, 0⟩ = .ok (load [1105, 1, 0] []).ip) ∧
    ((load [1106, 0, 0] []).Active ∧
      (load [1106, 0, 0] []).Fetches (.jumpIfFalse ⟨.immediate, 0⟩ ⟨.immediate, 0⟩) ∧
      (load [1106, 0, 0] []).ip.toInt + 3 ≤ Config.maxAddr ∧
      (load [1106, 0, 0] []).readValue ⟨.immediate, 0⟩ = .ok (load [1106, 0, 0] []).ip ∧
      (load [1106, 0, 0] []).ip = 0) :=
  ⟨⟨⟨rfl, rfl⟩, ⟨by decide, by decide, by decide⟩, by decide, by decide, by decide, by decide⟩,
    ⟨rfl, rfl⟩, ⟨by decide, by decide, by decide⟩, by decide, by decide, by decide⟩

theorem witness_LoadSetsEverything : (∀ program input, HostOp.run ≠ .load program input) ∧ 4 < ([1, 0, 0, 0, 99] : List Word).length ∧ ([1, 0, 0, 0, 99] : List Word).length ≤ 5 :=
  ⟨fun _ _ h => (by cases h), by decide⟩
theorem witness_OutputTransactions : ({ State.reset with ob := [1, 2, 3] } : State).ob = [1, 2] ++ [3] := by decide
theorem witness_PokeWrites : (0 : Int) ≤ 0 ∧ (9223372036854775807 : Int) ≤ 2 ^ 63 - 1 ∧ (-1 : Int) < 0 ∧
    (2 : Int) ^ 63 - 1 < 9223372036854775808 := by decide
theorem witness_SnapshotIsTheExtent : addState.Sound ∧ 7 < addState.len ∧ addState.len ≤ 8 :=
  ⟨addState_sound, by decide, by decide⟩
theorem witness_HostWritesNoRegister : (∀ program input, HostOp.poke 9 4 ≠ .load program input) ∧
    idleMove (.poke 9 4) addState = .ok (.done, .idle (addState.memWrite 9 4)) :=
  ⟨fun _ _ h => (by cases h), by decide⟩
theorem witness_FaultIsSticky : ({ addState with fault := some (.unknownOpcode 0 0) } : State).fault = some (.unknownOpcode 0 0) ∧
    ∀ program input, HostOp.run ≠ .load program input :=
  ⟨rfl, fun _ _ h => (by cases h)⟩

end Sys2Proof.Tests
end

section
/-!
Rule R5: `wrap64 v` is the one `Int64` congruent to `v` modulo 2^64, and the spec's formula is that number.
-/
namespace Sys2Proof.Machine

/-- R5's characterisation of `wrap64`: its signed value is the only number in the range of a cell that is congruent
to `v` modulo 2^64. -/
theorem wrap64_toInt_eq_iff {v c : Int} :
    (wrap64 v).toInt = c ↔ -2 ^ 63 ≤ c ∧ c < 2 ^ 63 ∧ 2 ^ 64 ∣ c - v := by
  rw [wrap64, BitVec.toInt_ofInt, Int.bmod_eq_iff (by decide)]
  norm_num

/-- Settles O31: the formula of R5 is in the range of a cell and congruent to `v`, so it is the value of `wrap64 v`. -/
theorem wrapIsModular : Obligations.WrapIsModular := by
  intro v
  have nonneg : 0 ≤ (v + 2 ^ 63) % 2 ^ 64 := Int.emod_nonneg _ (by decide)
  have lt : (v + 2 ^ 63) % 2 ^ 64 < 2 ^ 64 := Int.emod_lt_of_pos _ (by decide)
  have congr : 2 ^ 64 ∣ (v + 2 ^ 63) % 2 ^ 64 - (v + 2 ^ 63) := Int.dvd_emod_sub_self
  refine wrap64_toInt_eq_iff.mpr ⟨?_, ?_, ?_⟩
  · omega
  · omega
  · rwa [sub_sub, add_comm (2 ^ 63) v]

end Sys2Proof.Machine
end

section
/-!
Fetch and the step, as equations and equivalences: what `State.fetch` found, said by `State.Fetches` and the extent, and
what `step` answers in each of its cases (R70, R72, R76).
-/
namespace Sys2Proof.Machine

variable {s t : State} {i : Instr}

/-- A non-negative address names the same cell by its signed and by its unsigned value. -/
theorem toNat_toInt_of_nonneg {w : Word} (h : 0 ≤ w.toInt) : w.toInt.toNat = w.toNat := by
  rw [BitVec.toInt_eq_toNat_cond] at h ⊢
  have := w.isLt
  split_ifs at h ⊢ <;> omega

/-- The address check of `ip` fails only for a negative `ip`: MAXADDR is the largest value of the register (R71). -/
theorem State.checkAddr_ip (s : State) :
    s.checkAddr s.ip.toInt =
      if 0 ≤ s.ip.toInt then .ok s.ip.toNat else .error (.invalidAddress s.ip.toInt s.ip) := by
  split_ifs with h
  · have hmax : s.ip.toInt ≤ Config.maxAddr := by
      have := BitVec.toInt_lt (x := s.ip)
      simp only [Config.maxAddr]; omega
    rw [State.checkAddr_of_valid h hmax, toNat_toInt_of_nonneg h]
  · exact State.checkAddr_of_invalid (.inl (by omega))

theorem State.fetch_of_neg (h : s.ip.toInt < 0) : s.fetch = .raised (.invalidAddress s.ip.toInt s.ip) := by
  simp only [State.fetch, State.checkAddr_ip, if_neg (not_le.mpr h)]

theorem State.fetch_of_extent_le (h0 : 0 ≤ s.ip.toInt) (h : s.len ≤ s.ip.toNat) : s.fetch = .pastEnd := by
  simp only [State.fetch, State.checkAddr_ip, if_pos h0, if_pos h]

theorem State.fetch_of_decode_error {e : DecodeFault} (h0 : 0 ≤ s.ip.toInt) (h : s.ip.toNat < s.len)
    (hdec : decode (s.cellsAt s.ip.toNat) = .error e) : s.fetch = .raised (faultOfDecode s.word s.ip e) := by
  simp only [State.fetch, State.checkAddr_ip, if_pos h0, if_neg (not_le.mpr h), hdec, State.word]

theorem State.fetch_of_fetches (h : s.Fetches i) : s.fetch = .decoded i := by
  obtain ⟨h0, hlen, hdec⟩ := h
  simp only [State.fetch, State.checkAddr_ip, if_pos h0, if_neg (not_le.mpr hlen), hdec]

/-- The three things fetch and decode can find, each with what it says of `ip`, the extent and the cells there. -/
theorem State.fetch_cases (s : State) :
    (∃ r, s.fetch = .raised r) ∨ (s.fetch = .pastEnd ∧ 0 ≤ s.ip.toInt ∧ s.len ≤ s.ip.toNat) ∨
      ∃ i, s.fetch = .decoded i ∧ s.Fetches i := by
  by_cases h0 : 0 ≤ s.ip.toInt
  · by_cases hlen : s.len ≤ s.ip.toNat
    · exact .inr (.inl ⟨State.fetch_of_extent_le h0 hlen, h0, hlen⟩)
    · cases hdec : decode (s.cellsAt s.ip.toNat) with
      | error e => exact .inl ⟨_, State.fetch_of_decode_error h0 (not_le.mp hlen) hdec⟩
      | ok i =>
        have hfetch : s.Fetches i := ⟨h0, not_le.mp hlen, hdec⟩
        exact .inr (.inr ⟨i, State.fetch_of_fetches hfetch, hfetch⟩)
  · exact .inl ⟨_, State.fetch_of_neg (not_le.mp h0)⟩

theorem State.fetch_eq_pastEnd_iff : s.fetch = .pastEnd ↔ 0 ≤ s.ip.toInt ∧ s.len ≤ s.ip.toNat := by
  refine ⟨fun h => ?_, fun ⟨h0, hlen⟩ => State.fetch_of_extent_le h0 hlen⟩
  rcases s.fetch_cases with ⟨r, hx⟩ | ⟨-, hpast⟩ | ⟨i, hx, -⟩
  · cases h.symm.trans hx
  · exact hpast
  · cases h.symm.trans hx

theorem State.fetch_eq_decoded_iff : s.fetch = .decoded i ↔ s.Fetches i := by
  refine ⟨fun h => ?_, State.fetch_of_fetches⟩
  rcases s.fetch_cases with ⟨r, hx⟩ | ⟨hx, -⟩ | ⟨j, hx, hfetch⟩
  · cases h.symm.trans hx
  · cases h.symm.trans hx
  · cases h.symm.trans hx
    exact hfetch

/-! The step, forwards: one equation per case of `step_cases`. -/

theorem step_of_fault {r : FaultRecord} (h : s.fault = some r) : step s = .fault (.latched r) := by
  simp only [step, h]

theorem step_of_not_running (hf : s.fault = none) (h : s.status ≠ .running) : step s = .next s := by
  cases hst : s.status with
  | running => exact absurd hst h
  | halted => simp only [step, hf, hst]
  | waitingForInput => simp only [step, hf, hst]

theorem step_of_raised {r : FaultRecord} (h : s.Active) (hx : s.fetch = .raised r) : step s = .next (s.raise r) := by
  obtain ⟨hf, hst⟩ := h
  simp only [step, hf, hst, hx]

theorem step_of_pastEnd (h : s.Active) (hx : s.fetch = .pastEnd) : step s = .next (s.setStatus .halted) := by
  obtain ⟨hf, hst⟩ := h
  simp only [step, hf, hst, hx, implicitHalt]

theorem step_of_decoded (h : s.Active) (hx : s.fetch = .decoded i) : step s = exec i s := by
  obtain ⟨hf, hst⟩ := h
  simp only [step, hf, hst, hx]

/-- Settles O14, by the two cases of a step outside its precondition. -/
theorem stoppedCoreExecutesNothing : Obligations.StoppedCoreExecutesNothing :=
  ⟨fun _ _ => step_of_fault, fun _ => step_of_not_running⟩

end Sys2Proof.Machine
end

section
/-!
The machine's invariant `State.Sound` (R16, R17, R18): each update of the state keeps it, so each effect of an
instruction and each step does, and it holds of every loaded state.
-/
namespace Sys2Proof.Machine

variable {s t : State}

/-- Soundness speaks of memory, extent, latch and status alone. -/
theorem State.Sound.of_mem_len (hs : s.Sound) (hmem : t.mem = s.mem) (hlen : t.len = s.len) (hlatch : t.faultRunning) :
    t.Sound where
  memory := hmem ▸ hs.memory
  extent := by simpa only [State.withinExtent, hmem, hlen] using hs.extent
  bound := hlen ▸ hs.bound
  latch := hlatch

/-- A write inside the address space raises the extent where it must, so the cells stay within it. -/
theorem State.Sound.memWrite (hs : s.Sound) {d : Nat} (hd : d < Config.maxLen) (v : Word) : (s.memWrite d v).Sound where
  memory := Memory.write_wf hs.memory d v
  extent := by
    intro c hc
    rw [State.memWrite_len]
    rcases Memory.mem_write hc with hold | ⟨rfl, -⟩
    · have := hs.extent c hold
      split_ifs <;> omega
    · dsimp only
      split_ifs <;> omega
  bound := by
    have := hs.bound
    rw [State.memWrite_len]
    split_ifs <;> omega
  latch := hs.latch

theorem State.Sound.setIp (hs : s.Sound) (a : Word) : (s.setIp a).Sound := hs.of_mem_len rfl rfl hs.latch
theorem State.Sound.advance (hs : s.Sound) (n : Nat) : (s.advance n).Sound := hs.of_mem_len rfl rfl hs.latch
theorem State.Sound.setRb (hs : s.Sound) (v : Word) : (s.setRb v).Sound := hs.of_mem_len rfl rfl hs.latch
theorem State.Sound.setQueue (hs : s.Sound) (q : List Word) : (s.setQueue q).Sound := hs.of_mem_len rfl rfl hs.latch
theorem State.Sound.appendOutput (hs : s.Sound) (v : Word) : (s.appendOutput v).Sound :=
  hs.of_mem_len rfl rfl hs.latch

/-- The status of a core with no fault latched can be set to anything. -/
theorem State.Sound.setStatus (hs : s.Sound) (hf : s.fault = none) (v : Status) : (s.setStatus v).Sound :=
  hs.of_mem_len rfl rfl (by simp [State.faultRunning, hf])

/-- A fault is taken in a running core. -/
theorem State.Sound.raise (hs : s.Sound) (hst : s.status = .running) (r : FaultRecord) : (s.raise r).Sound :=
  hs.of_mem_len rfl rfl fun _ => hst

theorem Effect.sound (h : Effect s t) (hs : s.Sound) (hf : s.fault = none) : t.Sound := by
  cases h with
  | store d v hd => exact (hs.memWrite hd v).advance 4
  | take x rest _ d hd => exact ((hs.setQueue rest).memWrite hd x).advance 2
  | block => exact hs.setStatus hf _
  | emit v => exact (hs.appendOutput v).advance 2
  | jump a => exact hs.setIp a
  | fall => exact hs.advance 3
  | rebase v => exact (hs.setRb v).advance 2
  | halt => exact hs.setStatus hf _

/-- Settles O37, by the cases of a step: each is an update that keeps the invariant. -/
theorem stepKeepsSound : Obligations.StepKeepsSound := by
  intro s t hs h
  obtain ⟨hf, ⟨-, rfl⟩ | ⟨hst, hstep⟩⟩ := step_cases h
  · exact hs
  obtain ⟨r, -, rfl⟩ | ⟨-, rfl⟩ | ⟨i, -, hexec⟩ := hstep
  · exact hs.raise hst r
  · exact hs.setStatus hf _
  · rcases exec_cases hexec with ⟨r, rfl⟩ | heff
    · exact hs.raise hst r
    · exact heff.sound hs hf

theorem load_sound {program : List Word} (h : program.length ≤ Config.maxLen) (input : List Word) :
    (load program input).Sound where
  memory := Memory.ofCells_wf program 0
  extent := by
    intro c hc
    obtain ⟨-, hlt, -⟩ := Memory.mem_ofCells hc
    simpa [load] using hlt
  bound := h
  latch := fun _ => rfl

theorem reset_eq_load : State.reset = load [] [] := rfl

/-- Settles O38: the cells of a loaded list lie below its length, which is the extent; reset is the empty load. -/
theorem resetAndLoadAreSound : Obligations.ResetAndLoadAreSound := by
  refine ⟨?_, fun program input h => load_sound (le_trans h (by decide)) input⟩
  rw [reset_eq_load]
  exact load_sound (by decide) []

/-- Settles O33: no cell of a sound state is listed at or beyond the extent. -/
theorem beyondExtentReadsZero : Obligations.BeyondExtentReadsZero := by
  intro s a hs ha
  refine Memory.read_of_forall_ne fun c hc => ?_
  have := hs.extent c hc
  omega

/-- Settles O52, by the cells of a loaded list (`Memory.read_ofCells`). -/
theorem loadSetsEverything : Obligations.LoadSetsEverything := by
  refine ⟨fun op hop => ?_, fun program input => ?_⟩
  · cases op with
    | load program input => exact absurd rfl (hop program input)
    | run | addInput | readOutput | lastOutput | fullOutput | poke | status | memory | fault => rfl
  · have hread : ∀ a, (load program input).memRead a = program.getD a 0 := fun a => by
      rw [State.memRead, load, Memory.read_ofCells, if_pos (Nat.zero_le a), Nat.sub_zero]
    refine ⟨fun a _ => hread a, fun a ha => ?_, rfl, rfl, rfl, rfl, rfl, rfl, rfl⟩
    rw [hread, List.getD_eq_default _ _ ha]

/-- Settles O53: the reset state has an empty extent, so `ip` is at its end. -/
theorem resetIsEmptyLoad : Obligations.ResetIsEmptyLoad :=
  ⟨reset_eq_load, step_of_pastEnd ⟨rfl, rfl⟩ (State.fetch_of_extent_le (by decide) (by decide))⟩

end Sys2Proof.Machine
end

section
/-!
What each instruction can leave, with the instruction named: `Effect` says what kinds of effect there are, `Completes`
says which instruction has which. From it: who writes `rb`, where `ip` goes, which steps change `status`.
-/
namespace Sys2Proof.Machine

variable {s t : State} {i : Instr}

theorem bind_eq_ok {ε α β : Type} {x : Except ε α} {f : α → Except ε β} {b : β} (h : (x >>= f) = .ok b) :
    ∃ a, x = .ok a ∧ f a = .ok b := by
  cases x with
  | error e => cases h
  | ok a => exact ⟨a, rfl, h⟩

/-- The state an instruction leaves when it meets no fault (R80). -/
inductive Completes (s : State) : Instr → State → Prop where
  | store (i : Instr) (hi : i.size = 4) (d : Nat) (v : Word) : Completes s i ((s.memWrite d v).advance 4)
  | take (dst : Param) (x : Word) (rest : List Word) (hq : s.iq = x :: rest) (d : Nat) :
      Completes s (.input dst) (((s.setQueue rest).memWrite d x).advance 2)
  | block (dst : Param) (hq : s.iq = []) : Completes s (.input dst) (s.setStatus .waitingForInput)
  | emit (p : Param) (v : Word) : Completes s (.output p) ((s.appendOutput v).advance 2)
  | jump (i : Instr) (test target : Param) (hi : i = .jumpIfTrue test target ∨ i = .jumpIfFalse test target) (v : Word)
      (hv : s.readValue target = .ok v) : Completes s i (s.setIp v)
  | fall (i : Instr) (hi : i.size = 3) : Completes s i (s.advance 3)
  | rebase (a : Param) (v : Word) : Completes s (.adjustRelativeBase a) ((s.setRb v).advance 2)
  | halt : Completes s .halt (s.setStatus .halted)

theorem computeStore_completes {f : Word → Word → Word} {a b dst : Param} (hi : i.size = 4)
    (h : s.computeStore f a b dst = .ok t) : Completes s i t := by
  obtain ⟨v1, v2, d, -, -, -, -, rfl⟩ := State.computeStore_ok h
  exact .store i hi d _

theorem jumpWhen_completes {taken : Word → Bool} {test target : Param}
    (hi : i = .jumpIfTrue test target ∨ i = .jumpIfFalse test target)
    (h : s.jumpWhen taken test target = .ok t) : Completes s i t := by
  obtain ⟨v1, v2, -, hv, rfl⟩ := State.jumpWhen_ok h
  split_ifs
  · exact .jump i test target hi v2 hv
  · exact .fall i (by rcases hi with rfl | rfl <;> rfl)

/-- The end of an instruction's stages, read backwards: a fault was taken, or the stages gave the next state. -/
theorem State.raise_or_of_complete {P : Prop} {r : Except FaultRecord State} (h : s.complete r = .next t)
    (hok : r = .ok t → P) : (∃ f, t = s.raise f) ∨ P := by
  rcases State.complete_next h with h | ⟨f, -, h⟩
  · exact .inr (hok h)
  · exact .inl ⟨f, h⟩

/-- Everything an instruction can do, by instruction: `exec_cases` with the effects that are the instruction's own. -/
theorem exec_completes (h : exec i s = .next t) : (∃ f, t = s.raise f) ∨ Completes s i t := by
  cases i with
  | halt =>
    cases h
    exact .inr .halt
  | add | multiply | lessThan | equals =>
    exact State.raise_or_of_complete h (computeStore_completes rfl)
  | jumpIfTrue test target =>
    exact State.raise_or_of_complete h (jumpWhen_completes (.inl rfl))
  | jumpIfFalse test target =>
    exact State.raise_or_of_complete h (jumpWhen_completes (.inr rfl))
  | input dst =>
    refine State.raise_or_of_complete h fun hok => ?_
    obtain ⟨-, -, hok⟩ := bind_eq_ok hok
    split at hok
    · next hq =>
      cases hok
      exact .block dst hq
    · next x rest hq =>
      obtain ⟨d, -, hok⟩ := bind_eq_ok hok
      cases hok
      exact .take dst x rest hq d
  | output p =>
    refine State.raise_or_of_complete h fun hok => ?_
    obtain ⟨-, -, hok⟩ := bind_eq_ok hok
    obtain ⟨v, -, hok⟩ := bind_eq_ok hok
    cases hok
    exact .emit p v
  | adjustRelativeBase a =>
    refine State.raise_or_of_complete h fun hok => ?_
    obtain ⟨-, -, hok⟩ := bind_eq_ok hok
    obtain ⟨v, -, hok⟩ := bind_eq_ok hok
    cases hok
    exact .rebase a _

/-- R14 for one instruction. -/
theorem exec_rb (h : exec i s = .next t) : t.rb = s.rb ∨ ∃ p, i = .adjustRelativeBase p := by
  rcases exec_completes h with ⟨f, rfl⟩ | hc
  · exact .inl rfl
  · cases hc with
    | rebase a v => exact .inr ⟨a, rfl⟩
    | store | take | block | emit | jump | fall | halt => exact .inl rfl

/-- Settles O40, by the cases of a step and `exec_rb`. -/
theorem onlyAdjustWritesRb : Obligations.OnlyAdjustWritesRb := by
  intro s t h hrb
  obtain ⟨-, ⟨-, rfl⟩ | ⟨-, ⟨r, -, rfl⟩ | ⟨-, rfl⟩ | ⟨i, hx, hexec⟩⟩⟩ := step_cases h
  · exact absurd rfl hrb
  · exact absurd rfl hrb
  · exact absurd rfl hrb
  · obtain ⟨p, rfl⟩ := (exec_rb hexec).resolve_left hrb
    exact ⟨p, State.fetch_eq_decoded_iff.mp hx⟩

/-- The advance of `ip` is addition in the register. -/
theorem State.advance_ip_eq_add (s : State) (n : Nat) : (s.advance n).ip = s.ip + BitVec.ofNat 64 n := by
  rw [State.advance_ip, wrap64, BitVec.ofInt_add, BitVec.ofInt_toInt, BitVec.ofInt_natCast]

/-- R12 for an instruction that meets no fault: `ip` advances, or is a jump's target, or stays at the instruction that
halts or blocks. -/
theorem Completes.ip (h : Completes s i t) :
    t.status = s.status ∧ (t.ip = s.ip + BitVec.ofNat 64 i.size ∨
      ∃ test target, (i = .jumpIfTrue test target ∨ i = .jumpIfFalse test target) ∧ s.readValue target = .ok t.ip) ∨
    t.status ≠ .running ∧ t.ip = s.ip := by
  cases h with
  | store i hi d v => exact .inl ⟨rfl, .inl (by rw [hi, State.advance_ip_eq_add, State.memWrite_ip])⟩
  | take dst x rest hq d => exact .inl ⟨rfl, .inl (State.advance_ip_eq_add _ 2)⟩
  | emit p v => exact .inl ⟨rfl, .inl (State.advance_ip_eq_add _ 2)⟩
  | jump i test target hi v hv => exact .inl ⟨rfl, .inr ⟨test, target, hi, hv⟩⟩
  | fall i hi => exact .inl ⟨rfl, .inl (by rw [hi, State.advance_ip_eq_add])⟩
  | rebase a v => exact .inl ⟨rfl, .inl (State.advance_ip_eq_add _ 2)⟩
  | block => exact .inr ⟨nofun, rfl⟩
  | halt => exact .inr ⟨nofun, rfl⟩

/-- An effect leaves the fault latch alone. -/
theorem Completes.fault (h : Completes s i t) : t.fault = s.fault := by
  cases h with
  | store | take | block | emit | jump | fall | rebase | halt => rfl

/-- Settles O41: a fault leaves `ip`; the other ends are those of `Completes.ip`. -/
theorem ipGoesWhereTheRuleSays : Obligations.IpGoesWhereTheRuleSays := by
  rintro i s t ⟨hf, hst⟩ h
  rcases exec_completes h with ⟨f, rfl⟩ | hc
  · exact ⟨fun _ => rfl, fun hnone => by simp [hf] at hnone⟩
  · have hfault : t.fault = none := hc.fault.trans hf
    rcases hc.ip with ⟨hrun, hip⟩ | ⟨hstop, hip⟩
    · exact ⟨fun hend => absurd hend (by simp [hfault, hrun, hst]), fun _ _ => hip⟩
    · exact ⟨fun _ => hip, fun _ hrun => absurd hrun hstop⟩

/-- R15 for one instruction: only a blocked Input and Halt write `status`. -/
theorem exec_status (h : exec i s = .next t) :
    t.status = s.status ∨ (t.status = .waitingForInput ∧ s.iq = [] ∧ ∃ dst, i = .input dst) ∨
      (t.status = .halted ∧ i = .halt) := by
  rcases exec_completes h with ⟨f, rfl⟩ | hc
  · exact .inl rfl
  · cases hc with
    | block dst hq => exact .inr (.inl ⟨rfl, hq, dst, rfl⟩)
    | halt => exact .inr (.inr ⟨rfl, rfl⟩)
    | store | take | emit | jump | fall | rebase => exact .inl rfl

/-- Settles O43, by the cases of a step and `exec_status`. -/
theorem statusTransitions : Obligations.StatusTransitions := by
  intro s t h hne
  obtain ⟨hf, ⟨-, rfl⟩ | ⟨hst, hstep⟩⟩ := step_cases h
  · exact absurd rfl hne
  refine ⟨⟨hf, hst⟩, ?_⟩
  obtain ⟨r, -, rfl⟩ | ⟨hx, rfl⟩ | ⟨i, hx, hexec⟩ := hstep
  · exact absurd rfl hne
  · exact .inr ⟨rfl, .inr (State.fetch_eq_pastEnd_iff.mp hx)⟩
  · have hfetch := State.fetch_eq_decoded_iff.mp hx
    obtain ⟨hw, hq, dst, rfl⟩ | ⟨hh, rfl⟩ := (exec_status hexec).resolve_left hne
    · exact .inl ⟨hw, hq, dst, hfetch⟩
    · exact .inr ⟨hh, .inl hfetch⟩

/-- A write never lowers the extent (R17). -/
theorem State.len_le_memWrite_len (s : State) (d : Nat) (v : Word) : s.len ≤ (s.memWrite d v).len := by
  rw [State.memWrite_len]
  split_ifs <;> omega

/-- The two streams and the extent of a next state, against those it came from: R17, R19 and R20 as one relation. -/
def Disciplined (s t : State) : Prop :=
  s.len ≤ t.len ∧ (t.ob = s.ob ∨ ∃ v, t.ob = s.ob ++ [v]) ∧ (t.iq = s.iq ∨ ∃ x, s.iq = x :: t.iq)

theorem Disciplined.of_eq (hlen : t.len = s.len) (hob : t.ob = s.ob) (hiq : t.iq = s.iq) : Disciplined s t :=
  ⟨hlen.ge, .inl hob, .inl hiq⟩

theorem Effect.disciplined (h : Effect s t) : Disciplined s t := by
  cases h with
  | store d v => exact ⟨s.len_le_memWrite_len d v, .inl rfl, .inl rfl⟩
  | take x rest hq d => exact ⟨s.len_le_memWrite_len d x, .inl rfl, .inr ⟨x, hq⟩⟩
  | emit v => exact ⟨le_rfl, .inr ⟨v, rfl⟩, .inl rfl⟩
  | block | jump | fall | rebase | halt => exact .of_eq rfl rfl rfl

/-- Settles O42, by the cases of a step: only stores, Input and Output touch extent, queue and buffer. -/
theorem extentAndQueueDiscipline : Obligations.ExtentAndQueueDiscipline := by
  intro s t h
  change Disciplined s t
  obtain ⟨-, ⟨-, rfl⟩ | ⟨-, ⟨r, -, rfl⟩ | ⟨-, rfl⟩ | ⟨i, -, hexec⟩⟩⟩ := step_cases h
  · exact .of_eq rfl rfl rfl
  · exact .of_eq rfl rfl rfl
  · exact .of_eq rfl rfl rfl
  · rcases exec_cases hexec with ⟨r, rfl⟩ | heff
    · exact .of_eq rfl rfl rfl
    · exact heff.disciplined

end Sys2Proof.Machine
end

section
/-!
Noninterference (R14, R20, R26). A change `g` of the state that commutes with the updates an instruction makes, and does
not change what the instruction reads, commutes with the instruction. Setting `rb` is such a change, and so is putting
another output buffer in place of the old one.
-/
namespace Sys2Proof.Machine

variable {s t : State} {i : Instr} {g : State → State}

/-- `g` commutes with the updates of the state, `setRb` apart, and leaves `ip` and the queue as they are. Output needs
it of the state `s` it starts from only. -/
structure CommutesWithUpdates (g : State → State) (s : State) : Prop where
  ip : ∀ u, (g u).ip = u.ip
  iq : ∀ u, (g u).iq = u.iq
  raise : ∀ u r, (g u).raise r = g (u.raise r)
  memWrite : ∀ u d v, (g u).memWrite d v = g (u.memWrite d v)
  setIp : ∀ u a, (g u).setIp a = g (u.setIp a)
  setStatus : ∀ u v, (g u).setStatus v = g (u.setStatus v)
  setQueue : ∀ u q, (g u).setQueue q = g (u.setQueue q)
  appendOutput : ∀ v, (g s).appendOutput v = g (s.appendOutput v)

/-- The parameters of `i` resolve alike in the two states, as read and as write parameters. -/
def OperandsAgree (i : Instr) (s u : State) : Prop :=
  ∀ p ∈ i.params, u.readValue p = s.readValue p ∧ ∀ k, u.writeAddr k p = s.writeAddr k p

theorem map_ok {ε α β : Type} (f : α → β) (a : α) : f <$> (.ok a : Except ε α) = .ok (f a) := rfl

namespace CommutesWithUpdates

variable (hg : CommutesWithUpdates g s)
include hg

theorem advance (u : State) (n : Nat) : (g u).advance n = g (u.advance n) := by
  rw [State.advance, hg.ip, hg.setIp, State.advance]

theorem checkAdvance (n : Nat) : (g s).checkAdvance n = s.checkAdvance n := by
  rw [State.checkAdvance, hg.ip, State.checkAdvance]

theorem complete {r : Except FaultRecord State} (h : s.complete r = .next t) :
    (g s).complete (g <$> r) = .next (g t) := by
  rcases State.complete_next h with rfl | ⟨f, rfl, rfl⟩
  · rfl
  · exact congrArg _ (hg.raise s f)

theorem computeStore {f : Word → Word → Word} {a b dst : Param} (ha : (g s).readValue a = s.readValue a)
    (hb : (g s).readValue b = s.readValue b) (hd : (g s).writeAddr 3 dst = s.writeAddr 3 dst) :
    (g s).computeStore f a b dst = g <$> s.computeStore f a b dst := by
  simp only [State.computeStore, hg.checkAdvance, ha, hb, hd, map_bind, hg.memWrite, hg.advance, map_ok]

theorem jumpWhen {taken : Word → Bool} {test target : Param} (ht : (g s).readValue test = s.readValue test)
    (hv : (g s).readValue target = s.readValue target) :
    (g s).jumpWhen taken test target = g <$> s.jumpWhen taken test target := by
  simp only [State.jumpWhen, hg.checkAdvance, ht, hv, map_bind, hg.setIp, hg.advance, map_ok, apply_ite g]

theorem execInput {dst : Param} (hd : (g s).writeAddr 1 dst = s.writeAddr 1 dst) (h : execInput dst s = .next t) :
    execInput dst (g s) = .next (g t) := by
  rw [← hg.complete h, Machine.execInput, map_bind, hg.checkAdvance, hg.iq]
  cases s.iq with
  | nil => simp only [hg.setStatus, map_ok]
  | cons x rest => simp only [hd, map_bind, hg.setQueue, hg.memWrite, hg.advance, map_ok]

theorem execOutput {p : Param} (hv : (g s).readValue p = s.readValue p) (h : execOutput p s = .next t) :
    execOutput p (g s) = .next (g t) := by
  rw [← hg.complete h, Machine.execOutput]
  simp only [map_bind, hg.checkAdvance, hv, hg.appendOutput, hg.advance, map_ok]

theorem execAdjustRelativeBase {a : Param} (hv : (g s).readValue a = s.readValue a) (hrb : (g s).rb = s.rb)
    (hset : ∀ v, (g s).setRb v = g (s.setRb v)) (h : execAdjustRelativeBase a s = .next t) :
    execAdjustRelativeBase a (g s) = .next (g t) := by
  rw [← hg.complete h, Machine.execAdjustRelativeBase]
  simp only [map_bind, hg.checkAdvance, hv, hrb, hset, hg.advance, map_ok]

/-- The commuting square of one instruction. AdjustRelativeBase needs `g` to leave `rb` to it. -/
theorem exec (hop : OperandsAgree i s (g s))
    (hrb : i.opcode = .adjustRelativeBase → (g s).rb = s.rb ∧ ∀ v, (g s).setRb v = g (s.setRb v))
    (h : exec i s = .next t) : exec i (g s) = .next (g t) := by
  cases i with
  | add a b dst | multiply a b dst | lessThan a b dst | equals a b dst =>
    have ha := (hop a (by simp [Instr.params])).1
    have hb := (hop b (by simp [Instr.params])).1
    have hd := (hop dst (by simp [Instr.params])).2 3
    exact (congrArg _ (hg.computeStore ha hb hd)).trans (hg.complete h)
  | jumpIfTrue test target | jumpIfFalse test target =>
    have ht := (hop test (by simp [Instr.params])).1
    have hv := (hop target (by simp [Instr.params])).1
    exact (congrArg _ (hg.jumpWhen ht hv)).trans (hg.complete h)
  | input dst => exact hg.execInput ((hop dst (by simp [Instr.params])).2 1) h
  | output p => exact hg.execOutput (hop p (by simp [Instr.params])).1 h
  | adjustRelativeBase a =>
    obtain ⟨hold, hset⟩ := hrb rfl
    exact hg.execAdjustRelativeBase (hop a (by simp [Instr.params])).1 hold hset h
  | halt =>
    cases h
    exact congrArg _ (hg.setStatus s .halted)

end CommutesWithUpdates

theorem commutesWithUpdates_setRb (s : State) (r : Word) : CommutesWithUpdates (·.setRb r) s :=
  ⟨fun _ => rfl, fun _ => rfl, fun _ _ => rfl, fun _ _ _ => rfl, fun _ _ => rfl, fun _ _ => rfl, fun _ _ => rfl,
    fun _ => rfl⟩

/-- A parameter that is not Relative names its cell without `rb` (R56). -/
theorem operandsAgree_setRb (h : ∀ p ∈ i.params, p.mode ≠ .relative) (r : Word) :
    OperandsAgree i s (s.setRb r) := by
  rintro ⟨m, w⟩ hp
  cases m with
  | relative => exact absurd rfl (h _ hp)
  | position | immediate => exact ⟨rfl, fun _ => rfl⟩

/-- Settles O44: setting `rb` commutes with an instruction that has no Relative parameter and does not adjust `rb`. -/
theorem rbMattersOnlyToRelative : Obligations.RbMattersOnlyToRelative := fun _ s _ r hmode hop h =>
  (commutesWithUpdates_setRb s r).exec (operandsAgree_setRb hmode r) (fun hadj => absurd hadj hop) h

/-- `u` with the first `n` values of its output buffer replaced by `l`. -/
def State.replaceOutput (n : Nat) (l : List Word) (u : State) : State := { u with ob := l ++ u.ob.drop n }

theorem State.replaceOutput_all (s : State) (l : List Word) :
    s.replaceOutput s.ob.length l = { s with ob := l } := by
  rw [State.replaceOutput, List.drop_length, List.append_nil]

theorem commutesWithUpdates_replaceOutput (s : State) (l : List Word) :
    CommutesWithUpdates (State.replaceOutput s.ob.length l) s :=
  ⟨fun _ => rfl, fun _ => rfl, fun _ _ => rfl, fun _ _ _ => rfl, fun _ _ => rfl, fun _ _ => rfl, fun _ _ => rfl,
    fun v => by simp [State.replaceOutput, State.appendOutput]⟩

/-- The commuting square of a step: fetch, like the instructions, does not read the output buffer. -/
theorem step_replaceOutput (l : List Word) (h : step s = .next t) :
    step (s.replaceOutput s.ob.length l) = .next (t.replaceOutput s.ob.length l) := by
  obtain ⟨hf, ⟨hst, rfl⟩ | ⟨hst, hstep⟩⟩ := step_cases h
  · exact step_of_not_running hf hst
  have hactive : (s.replaceOutput s.ob.length l).Active := ⟨hf, hst⟩
  obtain ⟨r, hx, rfl⟩ | ⟨hx, rfl⟩ | ⟨i, hx, hexec⟩ := hstep
  · exact step_of_raised hactive hx
  · exact step_of_pastEnd hactive hx
  · rw [step_of_decoded hactive hx]
    exact (commutesWithUpdates_replaceOutput s l).exec (fun _ _ => ⟨rfl, fun _ => rfl⟩)
      (fun _ => ⟨rfl, fun _ => rfl⟩) hexec

/-- Settles O45: replacing the output buffer commutes with the step. -/
theorem outputBufferNeverRead : Obligations.OutputBufferNeverRead := by
  intro s t l h
  rw [← State.replaceOutput_all]
  exact step_replaceOutput l h

end Sys2Proof.Machine
end

section
/-!
The host's transactions on a stopped core (R16, R85, R148).
-/
namespace Sys2Proof.Machine

variable {s : State}

theorem beginRun_of_fault {r : FaultRecord} (h : s.fault = some r) : beginRun s = .inl (.faulted r) := by
  simp only [beginRun, h]

theorem beginRun_of_halted (hf : s.fault = none) (h : s.status = .halted) : beginRun s = .inl .halted := by
  simp only [beginRun, hf, h]

theorem runFor_of_beginRun_inl {e : RunEnd} (h : beginRun s = .inl e) (n : Nat) : runFor n s = (some e, s) := by
  simp only [runFor, h]

/-- Settles O47: in a faulted and in a halted core the run ends at its entry. -/
theorem runOnStoppedCore : Obligations.RunOnStoppedCore :=
  ⟨fun _ _ n h => runFor_of_beginRun_inl (beginRun_of_fault h) n,
    fun _ n hf h => runFor_of_beginRun_inl (beginRun_of_halted hf h) n⟩

/-- Every transaction but load and run answers at once, leaves the core between runs, and keeps the fault latch. -/
theorem idleMove_keeps_fault {op : HostOp} (hload : ∀ program input, op ≠ .load program input) (hrun : op ≠ .run) :
    ∃ a t, idleMove op s = .ok (a, .idle t) ∧ t.fault = s.fault := by
  cases op with
  | load program input => exact absurd rfl (hload program input)
  | run => exact absurd rfl hrun
  | addInput | readOutput | fullOutput | status | memory | fault => exact ⟨_, _, rfl, rfl⟩
  | lastOutput =>
    simp only [idleMove]
    cases lastOutput s <;> exact ⟨_, _, rfl, rfl⟩
  | poke a v =>
    simp only [idleMove, poke]
    split_ifs <;> exact ⟨_, _, rfl, rfl⟩

/-- Settles O59: a run on a faulted core returns at once, and no other transaction but load touches the latch. -/
theorem faultIsSticky : Obligations.FaultIsSticky := by
  intro op s r hf hload
  by_cases hrun : op = .run
  · subst hrun
    exact ⟨.ended (.faulted r), s, by simp only [idleMove, beginRun_of_fault hf], hf⟩
  · obtain ⟨a, t, hmove, hkeep⟩ := idleMove_keeps_fault (s := s) hload hrun
    exact ⟨a, t, hmove, hkeep.trans hf⟩

end Sys2Proof.Machine
end

section
/-!
The two memory accesses of the state (R33, R34): what a read gives after a write, and what a write makes of the extent.
-/
namespace Sys2Proof.Machine

variable {s : State} {a : Nat}

/-- R33 after R34, in a canonical memory: one cell is new. -/
theorem State.memRead_memWrite (hw : s.mem.wf) (a : Nat) (v : Word) (x : Nat) :
    (s.memWrite a v).memRead x = if x = a then v else s.memRead x :=
  Memory.read_write hw a v x

theorem State.memWrite_len_of_le (h : s.len ≤ a) (v : Word) : (s.memWrite a v).len = a + 1 := by
  rw [State.memWrite_len, if_pos h]

theorem State.memWrite_len_of_lt (h : a < s.len) (v : Word) : (s.memWrite a v).len = s.len := by
  rw [State.memWrite_len, if_neg (not_le.mpr h)]

/-- Settles O32: read after write at the written address and at any other, the two cases of the extent, and the frame,
which is the definition of the write. -/
theorem writeThenRead : Obligations.WriteThenRead := by
  intro s a v hw
  have hread := State.memRead_memWrite hw a v
  refine ⟨?_, fun x hx => ?_, fun h => State.memWrite_len_of_le h v, fun h => State.memWrite_len_of_lt h v, rfl⟩
  · rw [hread, if_pos rfl]
  · rw [hread, if_neg hx]

end Sys2Proof.Machine
end

section
/-!
The decoder (30_encoding.md R50 to R62, R69): the opcode map and the mode digits as equivalences, what a slot and a whole
word decode to, and, backwards, what a decoded word says of its digits.
-/
namespace Sys2Proof

variable {op : Opcode} {n n' i j k d : Nat} {w w' : Word} {m : Mode} {e : DecodeFault} {h : Header} {c : Cells}

/-! The opcode map and the mode digits (R53, R54, R55). -/

/-- The opcode map read backwards. -/
theorem Opcode.ofNumber_eq_some_iff : Opcode.ofNumber n = some op ↔ n = op.number := by
  constructor
  · intro h
    unfold Opcode.ofNumber at h
    split at h <;> cases h <;> rfl
  · rintro rfl
    cases op <;> rfl

/-- R57: the low two digits 0 and 10 to 98 name no opcode. -/
theorem Opcode.ofNumber_eq_none (h : n = 0 ∨ (10 ≤ n ∧ n ≤ 98)) : Opcode.ofNumber n = none := by
  cases hn : Opcode.ofNumber n with
  | none => rfl
  | some op =>
    have hnum : n = op.number := Opcode.ofNumber_eq_some_iff.mp hn
    cases op <;> simp only [Opcode.number] at hnum <;> omega

theorem Opcode.nparams_le_three (op : Opcode) : op.nparams ≤ 3 := by
  cases op <;> decide

/-- The write parameter is the last one. -/
theorem Opcode.nparams_of_wparam (h : op.wparam = some k) : k = op.nparams ∧ 1 ≤ k := by
  cases op <;> cases h <;> exact ⟨rfl, by decide⟩

theorem Mode.ofDigit_eq_some_iff : Mode.ofDigit d = some m ↔ d = m.digit := by
  constructor
  · intro h
    unfold Mode.ofDigit at h
    split at h <;> cases h <;> rfl
  · rintro rfl
    cases m <;> rfl

theorem Mode.ofDigit_of_three_le (h : 3 ≤ d) : Mode.ofDigit d = none := by
  cases hd : Mode.ofDigit d with
  | none => rfl
  | some m =>
    have hdigit : d = m.digit := Mode.ofDigit_eq_some_iff.mp hd
    cases m <;> simp only [Mode.digit] at hdigit <;> omega

theorem Mode.exists_digit_of_lt_three (h : d < 3) : ∃ m : Mode, d = m.digit := by
  interval_cases d
  · exact ⟨.position, rfl⟩
  · exact ⟨.immediate, rfl⟩
  · exact ⟨.relative, rfl⟩

/-- The digits below weight 10^j are those of the remainder modulo 10^j. -/
theorem digit_mod_pow (h : i < j) : digit (n % 10 ^ j) i = digit n i := by
  obtain ⟨r, rfl⟩ : ∃ r, j = i + (r + 1) := ⟨j - i - 1, by omega⟩
  rw [digit, pow_add, Nat.mod_mul_right_div_self, Nat.mod_mod_of_dvd _ (Dvd.intro_left _ (pow_succ 10 r).symm), digit]

theorem opcodeDigits_mod_pow : opcodeDigits (n % 10 ^ (j + 2)) = opcodeDigits n :=
  Nat.mod_mod_of_dvd _ (Dvd.intro_left _ (pow_add 10 j 2).symm)

/-! One parameter slot (R59, R60, R61). -/

theorem decodeMode_of_three_le (h : 3 ≤ digit n (k + 1)) : decodeMode op n k = .error (.invalidMode k) := by
  simp only [decodeMode, Mode.ofDigit_of_three_le h]

theorem decodeMode_of_digit (h : digit n (k + 1) = m.digit) :
    decodeMode op n k =
      if op.wparam = some k ∧ m = .immediate then .error (.invalidWriteTarget k) else .ok m := by
  simp only [decodeMode, Mode.ofDigit_eq_some_iff.mpr h]

theorem decodeMode_ok (h : decodeMode op n k = .ok m) :
    digit n (k + 1) = m.digit ∧ (op.wparam = some k → m ≠ .immediate) := by
  rcases Nat.lt_or_ge (digit n (k + 1)) 3 with hlt | hge
  · obtain ⟨m', hm'⟩ := Mode.exists_digit_of_lt_three hlt
    rw [decodeMode_of_digit hm'] at h
    split_ifs at h with hwrite
    cases h
    exact ⟨hm', fun hwp himm => hwrite ⟨hwp, himm⟩⟩
  · rw [decodeMode_of_three_le hge] at h
    cases h

theorem decodeSlot_of_le (h : k ≤ op.nparams) : decodeSlot op n k = decodeMode op n k :=
  if_pos h

/-- A parameter before the last is no write parameter, so any defined mode decodes. -/
theorem decodeSlot_of_lt (hk : k < op.nparams) (h : digit n (k + 1) < 3) : ∃ m, decodeSlot op n k = .ok m := by
  obtain ⟨m, hm⟩ := Mode.exists_digit_of_lt_three h
  refine ⟨m, ?_⟩
  rw [decodeSlot_of_le hk.le, decodeMode_of_digit hm, if_neg]
  rintro ⟨hwp, -⟩
  exact hk.ne (Opcode.nparams_of_wparam hwp).1

/-- R61 for one slot: it reads no digit above those of the opcode's parameters. -/
theorem decodeSlot_congr (h : n % 10 ^ (op.nparams + 2) = n' % 10 ^ (op.nparams + 2)) :
    decodeSlot op n k = decodeSlot op n' k := by
  unfold decodeSlot
  split_ifs with hk
  · have hlt : k + 1 < op.nparams + 2 := by omega
    rw [decodeMode, ← digit_mod_pow hlt, h, digit_mod_pow hlt, decodeMode]
  · rfl

/-! The word (R69). -/

theorem decodeWord_of_neg (h : w.toInt < 0) : decodeWord w = .error .unknownOpcode :=
  if_pos h

theorem decodeWord_of_ofNumber_none (h : Opcode.ofNumber (opcodeDigits w.toNat) = none) :
    decodeWord w = .error .unknownOpcode := by
  unfold decodeWord
  split_ifs
  · rfl
  · rw [h]

/-- A word of a defined opcode decodes slot by slot, in parameter order. -/
theorem decodeWord_of_opcode (h0 : 0 ≤ w.toInt) (hop : opcodeDigits w.toNat = op.number) :
    decodeWord w = (do
      let m1 ← decodeSlot op w.toNat 1
      let m2 ← decodeSlot op w.toNat 2
      let m3 ← decodeSlot op w.toNat 3
      .ok ⟨op, m1, m2, m3⟩) := by
  rw [decodeWord, if_neg (not_lt.mpr h0), Opcode.ofNumber_eq_some_iff.mpr hop]

/-- The decode fault of a word is that of its first slot that has one. -/
theorem decodeWord_of_slot_error (h0 : 0 ≤ w.toInt) (hop : opcodeDigits w.toNat = op.number) (hk : 1 ≤ k)
    (hk' : k ≤ op.nparams) (hlow : ∀ j, 1 ≤ j → j < k → digit w.toNat (j + 1) < 3)
    (herr : decodeMode op w.toNat k = .error e) : decodeWord w = .error e := by
  have hslot : ∀ j, 1 ≤ j → j < k → ∃ m, decodeSlot op w.toNat j = .ok m := fun j hj hjk =>
    decodeSlot_of_lt (hjk.trans_le hk') (hlow j hj hjk)
  have hk3 : k ≤ 3 := hk'.trans op.nparams_le_three
  rw [← decodeSlot_of_le hk'] at herr
  rw [decodeWord_of_opcode h0 hop]
  clear hk' hlow
  interval_cases k
  · rw [herr]
    rfl
  · obtain ⟨m1, h1⟩ := hslot 1 (by decide) (by decide)
    rw [h1, herr]
    rfl
  · obtain ⟨m1, h1⟩ := hslot 1 (by decide) (by decide)
    obtain ⟨m2, h2⟩ := hslot 2 (by decide) (by decide)
    rw [h1, h2, herr]
    rfl

/-- R61 for a word. -/
theorem decodeWord_congr (h0 : 0 ≤ w.toInt) (h0' : 0 ≤ w'.toInt) (hop : opcodeDigits w.toNat = op.number)
    (h : w.toNat % 10 ^ (op.nparams + 2) = w'.toNat % 10 ^ (op.nparams + 2)) : decodeWord w = decodeWord w' := by
  have hop' : opcodeDigits w'.toNat = op.number := by
    rw [← opcodeDigits_mod_pow (j := op.nparams), ← h, opcodeDigits_mod_pow, hop]
  simp only [decodeWord_of_opcode h0 hop, decodeWord_of_opcode h0' hop', decodeSlot_congr h]

/-- `h` is what the decoder reads in a word of value `n`: its opcode, and its modes slot by slot (R51, R69). -/
structure Header.ReadsFrom (h : Header) (n : Nat) : Prop where
  opcode : opcodeDigits n = h.op.number
  slot1 : decodeSlot h.op n 1 = .ok h.m1
  slot2 : decodeSlot h.op n 2 = .ok h.m2
  slot3 : decodeSlot h.op n 3 = .ok h.m3

theorem decodeWord_ok (hd : decodeWord w = .ok h) : 0 ≤ w.toInt ∧ h.ReadsFrom w.toNat := by
  have h0 : 0 ≤ w.toInt := by
    by_contra hneg
    rw [decodeWord_of_neg (not_le.mp hneg)] at hd
    cases hd
  cases hop : Opcode.ofNumber (opcodeDigits w.toNat) with
  | none =>
    rw [decodeWord_of_ofNumber_none hop] at hd
    cases hd
  | some op =>
    have hnum : opcodeDigits w.toNat = op.number := Opcode.ofNumber_eq_some_iff.mp hop
    rw [decodeWord_of_opcode h0 hnum] at hd
    obtain ⟨m1, h1, hd⟩ := Machine.bind_eq_ok hd
    obtain ⟨m2, h2, hd⟩ := Machine.bind_eq_ok hd
    obtain ⟨m3, h3, hd⟩ := Machine.bind_eq_ok hd
    cases hd
    exact ⟨h0, hnum, h1, h2, h3⟩

/-- The counterpart of `decode_mk` for a word that faults. -/
theorem decode_of_error (hd : decodeWord w = .error e) (p q r : Word) : decode ⟨w, p, q, r⟩ = .error e := by
  simp only [decode, hd]

/-- Of the word, decoding reads its header alone. -/
theorem decode_congr (hd : decodeWord w = decodeWord w') (p q r : Word) :
    decode ⟨w, p, q, r⟩ = decode ⟨w', p, q, r⟩ := by
  cases hw : decodeWord w with
  | error e => rw [decode_of_error hw, decode_of_error (hd.symm.trans hw)]
  | ok h =>
    rw [Laws.RoundTrip.decode_mk hw, Laws.RoundTrip.decode_mk (hd.symm.trans hw)]
    rfl

theorem decode_ok {i : Instr} (hd : decode c = .ok i) : ∃ h, decodeWord c.word = .ok h ∧ i = h.instr c := by
  cases hw : decodeWord c.word with
  | error e =>
    cases hd.symm.trans (decode_of_error hw c.p1 c.p2 c.p3)
  | ok h =>
    simp only [decode, hw] at hd
    cases hd
    exact ⟨h, rfl, rfl⟩

/-! The instruction of a header: its opcode, its parameters, its canonical word. -/

theorem Header.instr_opcode (h : Header) (c : Cells) : (h.instr c).opcode = h.op := by
  obtain ⟨op, m1, m2, m3⟩ := h
  cases op <;> rfl

theorem Header.instr_params (h : Header) (c : Cells) :
    (h.instr c).params = [⟨h.m1, c.p1⟩, ⟨h.m2, c.p2⟩, ⟨h.m3, c.p3⟩].take h.op.nparams := by
  obtain ⟨op, m1, m2, m3⟩ := h
  cases op <;> rfl

theorem Param.writable_of_ne {p : Param} (h : p.mode ≠ .immediate) : p.writable = true := by
  obtain ⟨m, r⟩ := p
  cases m with
  | immediate => exact absurd rfl h
  | position | relative => rfl

namespace Header.ReadsFrom

variable (hr : h.ReadsFrom n)
include hr

/-- No decoded write parameter is Immediate (R60). -/
theorem wellFormed (c : Cells) : (h.instr c).wellFormed = true := by
  obtain ⟨op, m1, m2, m3⟩ := h
  cases op with
  | add | multiply | lessThan | equals => exact Param.writable_of_ne ((decodeMode_ok hr.slot3).2 rfl)
  | input => exact Param.writable_of_ne ((decodeMode_ok hr.slot1).2 rfl)
  | output | jumpIfTrue | jumpIfFalse | adjustRelativeBase | halt => rfl

/-- The digits of the opcode and of the opcode's parameters are those of the canonical word (R62). -/
theorem mod_eq_wordValue (c : Cells) : n % 10 ^ (h.op.nparams + 2) = (h.instr c).wordValue := by
  have h1 : 1 ≤ h.op.nparams → n / 10 ^ 2 % 10 = h.m1.digit := fun hle =>
    (decodeMode_ok ((decodeSlot_of_le hle).symm.trans hr.slot1)).1
  have h2 : 2 ≤ h.op.nparams → n / 10 ^ 3 % 10 = h.m2.digit := fun hle =>
    (decodeMode_ok ((decodeSlot_of_le hle).symm.trans hr.slot2)).1
  have h3 : 3 ≤ h.op.nparams → n / 10 ^ 4 % 10 = h.m3.digit := fun hle =>
    (decodeMode_ok ((decodeSlot_of_le hle).symm.trans hr.slot3)).1
  have hop : n % 10 ^ 2 = h.op.number := hr.opcode
  rw [Instr.wordValue, Header.instr_opcode, Header.instr_params]
  have hk3 := h.op.nparams_le_three
  generalize h.op.nparams = k at *
  interval_cases k
  · exact hop
  · rw [Nat.mod_pow_succ, hop, h1 le_rfl]
    rfl
  · rw [Nat.mod_pow_succ, Nat.mod_pow_succ, hop, h1 (by decide), h2 le_rfl]
    rfl
  · rw [Nat.mod_pow_succ, Nat.mod_pow_succ, Nat.mod_pow_succ, hop, h1 (by decide), h2 (by decide), h3 le_rfl]
    rfl

end Header.ReadsFrom

theorem Instr.encode_length (i : Instr) : i.encode.length = i.size := by
  cases i <;> rfl

/-- Settles O2: the length by `Instr.encode_length`, the round trip by the law of each instruction. -/
theorem decodeInvertsEncode : Obligations.DecodeInvertsEncode := by
  intro i hw
  refine ⟨i.encode_length, ?_⟩
  cases i with
  | add a b dst => exact Laws.RoundTrip.add a b dst hw
  | multiply a b dst => exact Laws.RoundTrip.multiply a b dst hw
  | input dst => exact Laws.RoundTrip.input dst hw
  | output v => exact Laws.RoundTrip.output v hw
  | jumpIfTrue test target => exact Laws.RoundTrip.jumpIfTrue test target hw
  | jumpIfFalse test target => exact Laws.RoundTrip.jumpIfFalse test target hw
  | lessThan a b dst => exact Laws.RoundTrip.lessThan a b dst hw
  | equals a b dst => exact Laws.RoundTrip.equals a b dst hw
  | adjustRelativeBase a => exact Laws.RoundTrip.adjustRelativeBase a hw
  | halt => exact Laws.RoundTrip.halt hw

/-- Settles O3, from what the digits of a decoded word say (`Header.ReadsFrom`). -/
theorem decodedIsCanonical : Obligations.DecodedIsCanonical := by
  intro c i hdec
  obtain ⟨h, hd, rfl⟩ := decode_ok hdec
  obtain ⟨h0, hr⟩ := decodeWord_ok hd
  refine ⟨hr.wellFormed c, h0, ?_, ?_⟩
  · rw [Header.instr_params, Header.instr_opcode, List.map_take]
    rfl
  · rw [Header.instr_opcode, hr.mod_eq_wordValue c]

/-- Settles O4: the words agree slot by slot (`decodeWord_congr`); each of the rule's examples decodes by its word alone,
whatever the raw parameters. -/
theorem unusedDigitsIgnored : Obligations.UnusedDigitsIgnored := by
  refine ⟨fun w w' p q r op h0 h0' hop h => decode_congr (decodeWord_congr h0 h0' hop h) p q r,
    fun p q r => ⟨?_, ?_, ?_, ?_, ?_, ?_⟩⟩
  · exact Laws.RoundTrip.decode_mk (h := ⟨.halt, .position, .position, .position⟩) (by decide) p q r
  · exact Laws.RoundTrip.decode_mk (h := ⟨.halt, .position, .position, .position⟩) (by decide) p q r
  · exact Laws.RoundTrip.decode_mk (h := ⟨.output, .relative, .position, .position⟩) (by decide) p q r
  · exact Laws.RoundTrip.decode_mk (h := ⟨.output, .relative, .position, .position⟩) (by decide) p q r
  · exact Laws.RoundTrip.decode_mk (h := ⟨.output, .position, .position, .position⟩) (by decide) p q r
  · exact decode_of_error (by decide) p q r

/-- Settles O1: the eleven words are closed, and the decoder evaluates on them. -/
theorem specWordsDecode : Obligations.SpecWordsDecode := by
  unfold Obligations.SpecWordsDecode
  decide

end Sys2Proof
end

section
/-!
The three decode faults as steps (R57 to R60, R140): what the word at `ip` decodes to decides the record latched.
-/
namespace Sys2Proof.Machine

variable {s : State} {e : DecodeFault}

theorem State.raise_of_fault_none (hf : s.fault = none) (r : FaultRecord) : s.raise r = { s with fault := some r } := by
  rw [State.raise, hf, Option.none_or]

/-- A word that does not decode faults, and nothing but the latch changes. -/
theorem step_of_decodeWord_error (h : s.FetchesWord) (hd : decodeWord s.word = .error e) :
    step s = .next { s with fault := some (faultOfDecode s.word s.ip e) } := by
  obtain ⟨⟨hf, hst⟩, h0, hlen⟩ := h
  have hx : s.fetch = .raised (faultOfDecode s.word s.ip e) :=
    State.fetch_of_decode_error h0 hlen (decode_of_error hd _ _ _)
  rw [step_of_raised ⟨hf, hst⟩ hx, State.raise_of_fault_none hf]

/-- Settles O6: the lowest slot with an undefined mode digit is the first that does not decode. -/
theorem invalidModeFaults : Obligations.InvalidModeFaults := fun _ _ _ h h0 hop hk hk' hdigit hlow =>
  step_of_decodeWord_error h (decodeWord_of_slot_error h0 hop hk hk' hlow (decodeMode_of_three_le hdigit))

/-- Settles O7: the write parameter is the last, so the slots before it decode and its own is the first that does not. -/
theorem invalidWriteTargetFaults : Obligations.InvalidWriteTargetFaults := by
  intro s op k h h0 hop hwp hdigit hlow
  obtain ⟨hk, hpos⟩ := Opcode.nparams_of_wparam hwp
  have herr : decodeMode op s.word.toNat k = .error (.invalidWriteTarget k) := by
    rw [decodeMode_of_digit (m := .immediate) hdigit, if_pos ⟨hwp, rfl⟩]
  exact step_of_decodeWord_error h (decodeWord_of_slot_error h0 hop hpos hk.le hlow herr)

/-- Settles O5: the sign is tested first, and the low two digits 0 and 10 to 98 name no opcode. -/
theorem unknownOpcodeFaults : Obligations.UnknownOpcodeFaults := by
  intro s h hw
  suffices hd : decodeWord s.word = .error .unknownOpcode from step_of_decodeWord_error h hd
  rcases hw with hneg | hdigits
  · exact decodeWord_of_neg hneg
  · exact decodeWord_of_ofNumber_none (Opcode.ofNumber_eq_none hdigits)

end Sys2Proof.Machine
end

section
/-!
The stages of an instruction, forwards (R70, R74, R78, R79, R146): what the shared operations of `Laws/Operations.lean`
give when a check passes and when it does not.
-/
namespace Sys2Proof.Machine

variable {s : State} {i : Instr} {a : Int} {w : Word} {r : FaultRecord} {x y d test target : Param}
  {taken : Word → Bool} {f : Word → Word → Word}

/-! Operands. -/

/-- MAXADDR is the largest value of a cell (R31). -/
theorem maxAddr_eq : Config.maxAddr = 2 ^ 63 - 1 := by decide

theorem toInt_le_maxAddr (w : Word) : w.toInt ≤ Config.maxAddr := by
  have := BitVec.toInt_lt (x := w)
  simp only [Config.maxAddr]; omega

/-- A cell used as an address passes the check unless it is negative. -/
theorem State.checkAddr_toInt (h : 0 ≤ w.toInt) : s.checkAddr w.toInt = .ok w.toNat := by
  rw [State.checkAddr_of_valid h (toInt_le_maxAddr w), toNat_toInt_of_nonneg h]

theorem State.loadCell_of_ok {n : Nat} (h : s.checkAddr a = .ok n) : s.loadCell a = .ok (s.memRead n) := by
  simp only [State.loadCell, h]

theorem State.loadCell_of_error (h : s.checkAddr a = .error r) : s.loadCell a = .error r := by
  simp only [State.loadCell, h]

/-- Settles O15: Immediate by definition, the other two modes by the check of the exact address. -/
theorem readValueByMode : Obligations.ReadValueByMode := by
  intro s p
  rw [← maxAddr_eq]
  exact ⟨rfl,
    fun h => State.loadCell_of_ok (State.checkAddr_toInt h),
    fun h => State.loadCell_of_error (State.checkAddr_of_invalid (.inl h)),
    fun h0 h1 => State.loadCell_of_ok (State.checkAddr_of_valid h0 h1),
    fun h => State.loadCell_of_error (State.checkAddr_of_invalid h)⟩

/-- Settles O16: the destination is the checked address itself. -/
theorem writeAddrByMode : Obligations.WriteAddrByMode := by
  intro s k p
  rw [← maxAddr_eq]
  exact ⟨State.checkAddr_toInt, fun h => State.checkAddr_of_invalid (.inl h), State.checkAddr_of_valid,
    State.checkAddr_of_invalid, rfl⟩

/-! The end of the stages and the advance check. -/

/-- R141: where a stage raised, the fault is taken and nothing else changes. -/
theorem State.complete_error (hf : s.fault = none) (r : FaultRecord) :
    s.complete (.error r) = .next { s with fault := some r } :=
  congrArg _ (State.raise_of_fault_none hf r)

/-- Every instruction but Halt begins with the advance check of its size (R74). -/
theorem exec_eq_complete_checkAdvance (hi : i ≠ .halt) (s : State) :
    ∃ stages, exec i s = s.complete (s.checkAdvance i.size >>= stages) := by
  cases i with
  | halt => exact absurd rfl hi
  | add | multiply | input | output | jumpIfTrue | jumpIfFalse | lessThan | equals | adjustRelativeBase =>
    exact ⟨_, rfl⟩

/-- An advance within the address space is exact. -/
theorem State.advance_ip_toInt {n : Nat} (h0 : 0 ≤ s.ip.toInt) (h : s.ip.toInt + n ≤ Config.maxAddr) :
    (s.advance n).ip.toInt = s.ip.toInt + n := by
  rw [maxAddr_eq] at h
  exact wrap64_toInt_eq_iff.mpr ⟨by omega, by omega, by simp⟩

/-- Settles O11: the advance check comes first in every instruction but Halt, which has none. -/
theorem advanceOutOfRangeFaults : Obligations.AdvanceOutOfRangeFaults := by
  refine ⟨fun i s hf hi hadv => ?_, fun _ => rfl, fun _ _ => State.advance_ip_toInt⟩
  obtain ⟨stages, hexec⟩ := exec_eq_complete_checkAdvance hi s
  rw [hexec, State.checkAdvance_error hadv]
  exact State.complete_error hf _

/-! Three-operand instructions. -/

/-- The operands of a three-operand instruction are resolved in order, and the first that does not resolve raises. -/
theorem State.computeStore_error (hadv : s.ip.toInt + 4 ≤ Config.maxAddr)
    (h : s.readValue x = .error r ∨ (∃ v, s.readValue x = .ok v ∧ s.readValue y = .error r) ∨
      ∃ v w, s.readValue x = .ok v ∧ s.readValue y = .ok w ∧ s.writeAddr 3 d = .error r) :
    s.computeStore f x y d = .error r := by
  rw [State.computeStore, State.checkAdvance_ok hadv]
  obtain hx | ⟨v, hx, hy⟩ | ⟨v, w, hx, hy, hd⟩ := h
  · rw [hx]; rfl
  · rw [hx, hy]; rfl
  · rw [hx, hy, hd]; rfl

/-- The four storing instructions differ in the function of the two values alone. -/
theorem exec_eq_complete_computeStore (s : State)
    (hi : i ∈ [Instr.add x y d, .multiply x y d, .lessThan x y d, .equals x y d]) :
    ∃ f, exec i s = s.complete (s.computeStore f x y d) := by
  simp only [List.mem_cons, List.not_mem_nil, or_false] at hi
  obtain rfl | rfl | rfl | rfl := hi
  · exact ⟨sumCell, rfl⟩
  · exact ⟨productCell, rfl⟩
  · exact ⟨lessCell, rfl⟩
  · exact ⟨equalCell, rfl⟩

/-- Settles O17, by the shared stages of the four instructions. -/
theorem computeOperandFaults : Obligations.ComputeOperandFaults := by
  intro s x y d r hf hadv hop i hi
  obtain ⟨f, hexec⟩ := exec_eq_complete_computeStore s hi
  rw [hexec, State.computeStore_error hadv hop, State.complete_error hf]

/-! Jumps. -/

/-- Both operands of a jump are resolved, in order, before the test is looked at. -/
theorem State.jumpWhen_error (hadv : s.ip.toInt + 3 ≤ Config.maxAddr)
    (h : s.readValue test = .error r ∨ ∃ v, s.readValue test = .ok v ∧ s.readValue target = .error r) :
    s.jumpWhen taken test target = .error r := by
  rw [State.jumpWhen, State.checkAdvance_ok hadv]
  obtain ht | ⟨v, ht, hv⟩ := h
  · rw [ht]; rfl
  · rw [ht, hv]; rfl

/-- The converse of `State.jumpWhen_ok`. -/
theorem State.jumpWhen_of_ok {v1 v2 : Word} (hadv : s.ip.toInt + 3 ≤ Config.maxAddr) (ht : s.readValue test = .ok v1)
    (hv : s.readValue target = .ok v2) :
    s.jumpWhen taken test target = .ok (if taken v1 then s.setIp v2 else s.advance 3) := by
  rw [State.jumpWhen, State.checkAdvance_ok hadv, ht, hv]
  rfl

theorem toInt_eq_zero_iff : w.toInt = 0 ↔ w = 0 :=
  BitVec.toInt_inj (y := 0)

theorem testTrue_iff : testTrue w = true ↔ w ≠ 0 :=
  decide_eq_true_iff.trans (not_congr toInt_eq_zero_iff)

theorem testFalse_iff : testFalse w = true ↔ w = 0 :=
  decide_eq_true_iff.trans toInt_eq_zero_iff

theorem exec_jumpIfTrue {v1 v2 : Word} (hadv : s.ip.toInt + 3 ≤ Config.maxAddr) (ht : s.readValue test = .ok v1)
    (hv : s.readValue target = .ok v2) :
    exec (.jumpIfTrue test target) s = .next (if v1 ≠ 0 then s.setIp v2 else s.advance 3) := by
  rw [exec, execJumpIfTrue, State.jumpWhen_of_ok hadv ht hv, State.complete]
  simp only [testTrue_iff]

theorem exec_jumpIfFalse {v1 v2 : Word} (hadv : s.ip.toInt + 3 ≤ Config.maxAddr) (ht : s.readValue test = .ok v1)
    (hv : s.readValue target = .ok v2) :
    exec (.jumpIfFalse test target) s = .next (if v1 = 0 then s.setIp v2 else s.advance 3) := by
  rw [exec, execJumpIfFalse, State.jumpWhen_of_ok hadv ht hv, State.complete]
  simp only [testFalse_iff]

/-- Settles O18: neither jump looks at its test before both operands are resolved. -/
theorem jumpOperandFaults : Obligations.JumpOperandFaults := by
  intro s test target r hf hadv hop
  have hexec (taken) : s.complete (s.jumpWhen taken test target) = .next { s with fault := some r } := by
    rw [State.jumpWhen_error hadv hop, State.complete_error hf]
  exact ⟨hexec testTrue, hexec testFalse⟩

/-! Input on an empty queue. -/

theorem exec_input_of_empty (hadv : s.ip.toInt + 2 ≤ Config.maxAddr) (hq : s.iq = []) (dst : Param) :
    exec (.input dst) s = .next (s.setStatus .waitingForInput) := by
  rw [exec, execInput, State.checkAdvance_ok hadv, hq]
  rfl

/-- Settles O25: the first clause by the stages of Input, the second by `exec_status`. -/
theorem emptyQueueBlocks : Obligations.EmptyQueueBlocks := by
  refine ⟨fun s dst hadv hq => exec_input_of_empty hadv hq dst, fun i s t hst h hw => ?_⟩
  obtain hkeep | ⟨-, hq, hi⟩ | ⟨hh, -⟩ := exec_status h
  · cases hst.symm.trans (hkeep.symm.trans hw)
  · exact ⟨hq, hi⟩
  · cases hh.symm.trans hw

end Sys2Proof.Machine
end

section
/-!
The step of an active core (R70, R71, R72, R82): it runs what it fetched, and it ends in one of four ways.
-/
namespace Sys2Proof.Machine

variable {s t : State} {i : Instr}

theorem step_of_fetches (h : s.Active) (hx : s.Fetches i) : step s = exec i s :=
  step_of_decoded h (State.fetch_of_fetches hx)

/-- Settles O8: the four cells of the statement are `State.cellsAt`. -/
theorem stepRunsDecoded : Obligations.StepRunsDecoded := fun _ _ hf hst h0 hlen hdec =>
  step_of_fetches ⟨hf, hst⟩ ⟨h0, hlen, hdec⟩

theorem step_of_neg (h : s.Active) (hneg : s.ip.toInt < 0) :
    step s = .next { s with fault := some (.invalidAddress s.ip.toInt s.ip) } := by
  rw [step_of_raised h (State.fetch_of_neg hneg), State.raise_of_fault_none h.1]

/-- Settles O9: a taken jump sets `ip` whatever the target, and the next fetch finds it negative. -/
theorem negativeIpFaults : Obligations.NegativeIpFaults := by
  refine ⟨fun _ => step_of_neg, fun s test target v1 v2 h hadv ht hv hneg => ⟨fun hne => ?_, fun heq => ?_, ?_⟩⟩
  · rw [exec_jumpIfTrue hadv ht hv, if_pos hne, State.setIp]
  · rw [exec_jumpIfFalse hadv ht hv, if_pos heq, State.setIp]
  · exact step_of_neg (s := { s with ip := v2 }) h hneg

/-- Settles O10, by the fetch at or beyond the extent. -/
theorem implicitHaltAtExtent : Obligations.ImplicitHaltAtExtent := fun _ h h0 hlen =>
  step_of_pastEnd h (State.fetch_of_extent_le h0 hlen)

/-- Without a latched fault a step gives a next state. -/
theorem step_total (hf : s.fault = none) : ∃ t, step s = .next t := by
  by_cases hst : s.status = .running
  · obtain ⟨r, hx⟩ | ⟨hx, -⟩ | ⟨i, hx, -⟩ := s.fetch_cases
    · exact ⟨_, step_of_raised ⟨hf, hst⟩ hx⟩
    · exact ⟨_, step_of_pastEnd ⟨hf, hst⟩ hx⟩
    · rw [step_of_decoded ⟨hf, hst⟩ hx]
      exact exec_total i s
  · exact ⟨_, step_of_not_running hf hst⟩

theorem step_ne_refused (s : State) (r : Refusal) : step s ≠ .refused r := by
  intro h
  cases hf : s.fault with
  | some e => cases h.symm.trans (step_of_fault hf)
  | none =>
    obtain ⟨t, ht⟩ := step_total hf
    cases h.symm.trans ht

/-- How an instruction that meets no fault leaves `status`: Halt and a blocked Input write it and nothing else. -/
theorem Completes.ending (h : Completes s i t) :
    (i ≠ .halt ∧ t.status = s.status) ∨ (i = .halt ∧ t = s.setStatus .halted) ∨
      (s.iq = [] ∧ (∃ dst, i = .input dst) ∧ t = s.setStatus .waitingForInput) := by
  cases h with
  | halt => exact .inr (.inl ⟨rfl, rfl⟩)
  | block dst hq => exact .inr (.inr ⟨hq, ⟨dst, rfl⟩, rfl⟩)
  | take | emit | rebase => exact .inl ⟨nofun, rfl⟩
  | store i hi | fall i hi => exact .inl ⟨(by rintro rfl; cases hi), rfl⟩
  | jump i test target hi => exact .inl ⟨(by rintro rfl; simp at hi), rfl⟩

/-- Settles O12, by the cases of a step, of an instruction (`exec_completes`) and of its ending. -/
theorem stepEndsInFourWays : Obligations.StepEndsInFourWays := by
  rintro s ⟨hf, hst⟩
  obtain ⟨t, h⟩ := step_total hf
  refine ⟨t, h, ?_⟩
  obtain ⟨-, ⟨hnot, -⟩ | ⟨-, ⟨r, -, rfl⟩ | ⟨hx, rfl⟩ | ⟨i, hx, hexec⟩⟩⟩ := step_cases h
  · exact absurd hst hnot
  · exact .inr (.inr (.inr ⟨r, State.raise_of_fault_none hf r⟩))
  · exact .inr (.inl ⟨.inr (State.fetch_eq_pastEnd_iff.mp hx), rfl⟩)
  · have hfetch : s.Fetches i := State.fetch_eq_decoded_iff.mp hx
    obtain ⟨r, rfl⟩ | hc := exec_completes hexec
    · exact .inr (.inr (.inr ⟨r, State.raise_of_fault_none hf r⟩))
    · obtain ⟨hi, hstatus⟩ | ⟨rfl, rfl⟩ | ⟨hq, ⟨dst, rfl⟩, rfl⟩ := hc.ending
      · exact .inl ⟨hc.fault.trans hf, hstatus.trans hst, i, hi, hfetch, hexec⟩
      · exact .inr (.inl ⟨.inl hfetch, rfl⟩)
      · exact .inr (.inr (.inl ⟨hq, ⟨dst, hfetch⟩, rfl⟩))

end Sys2Proof.Machine
end

section
/-!
The run loop (R85, R86, R87): its entry, one equation per outcome of a step, and what follows for every budget.
-/
namespace Sys2Proof.Machine

variable {s t : State} {e : RunEnd} {n m : Nat}

/-! The entry and the end of a run. -/

/-- A run enters the loop exactly from a core that is neither faulted nor halted, with `status` Running. -/
theorem beginRun_eq_inr_iff :
    beginRun s = .inr t ↔ s.fault = none ∧ s.status ≠ .halted ∧ t = s.setStatus .running := by
  cases hf : s.fault with
  | some r => simp [beginRun_of_fault hf]
  | none => cases hst : s.status <;> simp [beginRun, hf, hst, eq_comm]

/-- Between its steps the loop goes on exactly when the core is active. -/
theorem runEnd_eq_none_iff : runEnd t = none ↔ t.Active := by
  cases hf : t.fault with
  | some r => simp [runEnd, hf, State.Active]
  | none => cases hst : t.status <;> simp [runEnd, hf, hst, State.Active]

theorem runEnd_of_waiting (hf : s.fault = none) (hst : s.status = .waitingForInput) : runEnd s = some .blocked := by
  simp only [runEnd, hf, hst]

theorem State.setStatus_self {v : Status} (h : s.status = v) : s.setStatus v = s := by
  rw [← h, State.setStatus]

theorem runFor_of_beginRun_inr (h : beginRun s = .inr t) (n : Nat) : runFor n s = runLoop n t := by
  simp only [runFor, h]

theorem runFor_of_active (h : s.Active) (n : Nat) : runFor n s = runLoop n s := by
  obtain ⟨hf, hst⟩ := h
  exact runFor_of_beginRun_inr
    (beginRun_eq_inr_iff.mpr ⟨hf, by simp [hst], (State.setStatus_self hst).symm⟩) n

/-! One turn of the loop. -/

theorem runLoop_succ_of_runEnd (h : step s = .next t) (he : runEnd t = some e) :
    runLoop (n + 1) s = (some e, t) := by
  simp only [runLoop, h, he]

theorem runLoop_succ_of_active (h : step s = .next t) (ht : t.Active) : runLoop (n + 1) s = runLoop n t := by
  simp only [runLoop, h, runEnd_eq_none_iff.mpr ht]

theorem runLoop_succ_of_fault {r : FaultRecord} (h : s.fault = some r) :
    runLoop (n + 1) s = (some (.faulted r), s) := by
  simp only [runLoop, step_of_fault h]

/-- A loop that has ended has ended alike under every larger budget. -/
theorem runLoop_mono (h : runLoop n s = (some e, t)) (hle : n ≤ m) : runLoop m s = (some e, t) := by
  induction n generalizing s m with
  | zero => cases h
  | succ n ih =>
    obtain ⟨m, rfl⟩ : ∃ k, m = k + 1 := ⟨m - 1, by omega⟩
    cases hf : s.fault with
    | some r => rwa [runLoop_succ_of_fault hf] at h ⊢
    | none =>
      obtain ⟨u, hstep⟩ := step_total hf
      cases he : runEnd u with
      | some e' => rwa [runLoop_succ_of_runEnd hstep he] at h ⊢
      | none =>
        have hactive : u.Active := runEnd_eq_none_iff.mp he
        rw [runLoop_succ_of_active hstep hactive] at h ⊢
        exact ih h (Nat.le_of_succ_le_succ hle)

/-- Settles O50: the entry does not look at the budget, and the loop is monotone in it. -/
theorem budgetDoesNotMatter : Obligations.BudgetDoesNotMatter := by
  intro s t n m e h hle
  cases hb : beginRun s with
  | inl e' => rwa [runFor_of_beginRun_inl hb] at h ⊢
  | inr u =>
    rw [runFor_of_beginRun_inr hb] at h ⊢
    exact runLoop_mono h hle

/-- An active core whose step leaves it as it is stays in the loop. -/
theorem runLoop_of_step_self (h : s.Active) (hstep : step s = .next s) (n : Nat) : runLoop n s = (none, s) := by
  induction n with
  | zero => rfl
  | succ n ih => rw [runLoop_succ_of_active hstep h, ih]

/-- Settles O51: the jump sets `ip` to what it was, so its step leaves the state as it is. -/
theorem jumpToItselfNeverEnds : Obligations.JumpToItselfNeverEnds := by
  intro s test target v n h hjump hadv ht hv
  have hstep : step s = .next s := by
    obtain ⟨hx, hne⟩ | ⟨hx, heq⟩ := hjump
    · rw [step_of_fetches h hx, exec_jumpIfTrue hadv ht hv, if_pos hne, State.setIp]
    · rw [step_of_fetches h hx, exec_jumpIfFalse hadv ht hv, if_pos heq, State.setIp]
  rw [runFor_of_active h, runLoop_of_step_self h hstep]

/-- Settles O48: the run sets `status` to Running, and the Input sets it back and ends the run. -/
theorem runOnWaitingCoreBlocksAgain : Obligations.RunOnWaitingCoreBlocksAgain := by
  intro s dst n hf hst hq hx hadv
  have hbegin : beginRun s = .inr (s.setStatus .running) := beginRun_eq_inr_iff.mpr ⟨hf, by simp [hst], rfl⟩
  have hstep : step (s.setStatus .running) = .next s := by
    have hexec := exec_input_of_empty (s := s.setStatus .running) hadv hq dst
    rw [step_of_fetches (s := s.setStatus .running) ⟨hf, rfl⟩ hx, hexec]
    exact congrArg _ (State.setStatus_self hst)
  rw [runFor_of_beginRun_inr hbegin, runLoop_succ_of_runEnd hstep (runEnd_of_waiting hf hst)]

end Sys2Proof.Machine
end

section
/-!
The moves of the two agents (R41, R129, R131, R167): each keeps the invariant of the phase, and the core's is defined
throughout a run.
-/
namespace Sys2Proof.Machine

variable {s t : State} {q : Phase}

theorem loadMove_sound {program input : List Word} {ans : Answer} (h : loadMove program input = .ok (ans, q)) :
    q.Sound := by
  simp only [loadMove] at h
  split_ifs at h with hlen
  cases h
  exact load_sound hlen input

/-- A poke is a checked write. -/
theorem poke_sound {a : Int} {v : Word} (hs : s.Sound) (h : poke a v s = some t) : t.Sound := by
  simp only [poke] at h
  split_ifs at h with hvalid
  cases h
  exact hs.memWrite (State.checkAddr_lt (s := s) (if_pos hvalid)) v

/-- A run enters its loop with an active core. -/
theorem beginRun_sound (hs : s.Sound) (h : beginRun s = .inr t) : t.Sound ∧ t.Active := by
  obtain ⟨hf, -, rfl⟩ := beginRun_eq_inr_iff.mp h
  exact ⟨hs.setStatus hf .running, hf, rfl⟩

theorem idleMove_sound {op : HostOp} {ans : Answer} (hs : s.Sound) (h : idleMove op s = .ok (ans, q)) : q.Sound := by
  cases op with
  | load program input => exact loadMove_sound h
  | run =>
    simp only [idleMove] at h
    split at h
    · cases h
      exact hs
    · next t hbegin =>
      cases h
      exact beginRun_sound hs hbegin
  | poke a v =>
    simp only [idleMove] at h
    split at h
    · next t hpoke =>
      cases h
      exact poke_sound hs hpoke
    · cases h
      exact hs
  | addInput | readOutput =>
    cases h
    exact hs.of_mem_len rfl rfl hs.latch
  | lastOutput =>
    simp only [idleMove] at h
    split at h
    all_goals
      cases h
      exact hs
  | fullOutput | status | memory | fault =>
    cases h
    exact hs

theorem hostMove_sound {op : HostOp} {p : Phase} {ans : Answer} (hp : p.Sound) (h : hostMove op p = .ok (ans, q)) :
    q.Sound := by
  cases p with
  | unloaded =>
    cases op with
    | load program input => exact loadMove_sound h
    | run | addInput | readOutput | lastOutput | fullOutput | poke | status | memory | fault => cases h
  | idle s => exact idleMove_sound hp h
  | inRun s => cases h

/-- The core's move, once its step is known: it ends the run or leaves the core active. -/
theorem coreMove_of_step (h : step s = .next t) :
    (∃ e, coreMove (.inRun s) = .ok (some (.ended e), .idle t)) ∨
      (coreMove (.inRun s) = .ok (none, .inRun t) ∧ t.Active) := by
  cases he : runEnd t with
  | some e => exact .inl ⟨e, by simp only [coreMove, h, he]⟩
  | none => exact .inr ⟨by simp only [coreMove, h, he], runEnd_eq_none_iff.mp he⟩

theorem coreMove_sound {p : Phase} {ans : Option Answer} (hp : p.Sound) (h : coreMove p = .ok (ans, q)) : q.Sound := by
  cases p with
  | unloaded => cases h
  | idle s => cases h
  | inRun s =>
    obtain ⟨hs, hf, -⟩ := hp
    obtain ⟨t, hstep⟩ := step_total hf
    have ht : t.Sound := stepKeepsSound s t hs hstep
    obtain ⟨e, hmove⟩ | ⟨hmove, hactive⟩ := coreMove_of_step hstep
    · cases hmove.symm.trans h
      exact ht
    · cases hmove.symm.trans h
      exact ⟨ht, hactive⟩

/-- Settles O39, agent by agent. -/
theorem movesKeepSound : Obligations.MovesKeepSound :=
  ⟨fun _ _ _ _ => hostMove_sound, fun _ _ _ => coreMove_sound⟩

/-- Settles O46: a core inside a run has no fault latched, so it has a step, and the move follows it. -/
theorem coreInRunAlwaysMoves : Obligations.CoreInRunAlwaysMoves := by
  refine ⟨fun s hs => ?_, step_ne_refused⟩
  obtain ⟨-, hf, -⟩ := hs
  obtain ⟨t, hstep⟩ := step_total hf
  obtain ⟨e, hmove⟩ | ⟨hmove, -⟩ := coreMove_of_step hstep
  · exact ⟨_, _, hmove⟩
  · exact ⟨_, _, hmove⟩

end Sys2Proof.Machine
end

section
/-!
The storing three-operand instructions (R80, R90, R91, R105, R106): the state they leave when their operands resolve,
and what they leave unchanged whether or not they do.
-/
namespace Sys2Proof.Machine

variable {s : State} {x y dst : Param} {v1 v2 : Word} {d : Nat} {f : Word → Word → Word}

/-- The advance of `ip`, as an update: addition in the register. -/
theorem State.advance_eq_setIp (s : State) (n : Nat) : s.advance n = s.setIp (s.ip + BitVec.ofNat 64 n) :=
  congrArg s.setIp (s.advance_ip_eq_add n)

/-- The converse of `State.computeStore_ok`. -/
theorem State.computeStore_of_ok (hadv : s.ip.toInt + 4 ≤ Config.maxAddr) (hx : s.readValue x = .ok v1)
    (hy : s.readValue y = .ok v2) (hd : s.writeAddr 3 dst = .ok d) :
    s.computeStore f x y dst = .ok ((s.memWrite d (f v1 v2)).advance 4) := by
  rw [State.computeStore, State.checkAdvance_ok hadv, hx, hy, hd]
  rfl

/-- The full next state of a storing three-operand instruction whose operands resolve. -/
theorem State.complete_computeStore_of_ok (hadv : s.ip.toInt + 4 ≤ Config.maxAddr) (hx : s.readValue x = .ok v1)
    (hy : s.readValue y = .ok v2) (hd : s.writeAddr 3 dst = .ok d) :
    s.complete (s.computeStore f x y dst) = .next
      { s with
        mem := s.mem.write d (f v1 v2)
        len := if s.len ≤ d then d + 1 else s.len
        ip := s.ip + 4 } := by
  rw [State.computeStore_of_ok hadv hx hy hd, State.advance_eq_setIp]
  rfl

/-- Settles O20: Add stores `sumCell`, the wrap of the exact sum. -/
theorem addResult : Obligations.AddResult := fun _ _ _ _ _ _ _ hadv hx hy hd =>
  State.complete_computeStore_of_ok (f := sumCell) hadv hx hy hd

/-- Settles O21: Multiply stores `productCell`, the wrap of the exact product. -/
theorem multiplyResult : Obligations.MultiplyResult := fun _ _ _ _ _ _ _ hadv hx hy hd =>
  State.complete_computeStore_of_ok (f := productCell) hadv hx hy hd

/-- Settles O34: a fault changes the latch alone; otherwise the one cell written is that of the destination. -/
theorem computeFrame : Obligations.ComputeFrame := by
  intro s t x y dst hw i hi h
  obtain ⟨f, hexec⟩ := exec_eq_complete_computeStore s hi
  rw [hexec] at h
  obtain ⟨r, rfl⟩ | ⟨v1, v2, d, -, -, hd, -, rfl⟩ := State.raise_or_of_complete h State.computeStore_ok
  · exact ⟨rfl, rfl, rfl, rfl, fun _ _ _ _ => rfl, fun _ _ _ => rfl, fun _ _ => ⟨fun _ => rfl, rfl⟩,
      .inr ⟨rfl, rfl, rfl⟩⟩
  · refine ⟨rfl, rfl, rfl, rfl, fun d' hd' a ha => ?_, fun d' hd' hlt => ?_, fun r hr => ?_, .inl rfl⟩
    · cases hd.symm.trans hd'
      rw [State.advance_memRead, State.memRead_memWrite hw, if_neg ha]
    · cases hd.symm.trans hd'
      rw [State.advance_len, State.memWrite_len_of_lt hlt]
    · cases hd.symm.trans hr

end Sys2Proof.Machine
end

section
/-!
The instructions of one operand (R95, R96, R110) and those that store nothing (R96, R100, R101, R110, R113): the stages
left once the advance check has passed, the next state, and what stays unchanged whether or not the operands resolve.
-/
namespace Sys2Proof.Machine

variable {s t : State} {p dst test target : Param} {x : Word} {rest : List Word} {taken : Word → Bool}

/-! The stages after the advance check. -/

/-- Input with a value queued resolves the destination before it pops. -/
theorem exec_input_of_cons (hadv : s.ip.toInt + 2 ≤ Config.maxAddr) (hq : s.iq = x :: rest) :
    exec (.input dst) s =
      s.complete (s.writeAddr 1 dst >>= fun d => .ok (((s.setQueue rest).memWrite d x).advance 2)) := by
  rw [exec, execInput, State.checkAdvance_ok hadv, hq]
  rfl

theorem exec_output_of_checkAdvance (hadv : s.ip.toInt + 2 ≤ Config.maxAddr) :
    exec (.output p) s = s.complete (s.readValue p >>= fun v => .ok ((s.appendOutput v).advance 2)) := by
  rw [exec, execOutput, State.checkAdvance_ok hadv]
  rfl

theorem exec_adjustRelativeBase_of_checkAdvance (hadv : s.ip.toInt + 2 ≤ Config.maxAddr) :
    exec (.adjustRelativeBase p) s =
      s.complete (s.readValue p >>= fun v => .ok ((s.setRb (wrap64 (s.rb.toInt + v.toInt))).advance 2)) := by
  rw [exec, execAdjustRelativeBase, State.checkAdvance_ok hadv]
  rfl

/-- Settles O19: resolving the operand is the first stage after the advance check, so its record is the one latched. -/
theorem singleOperandFaults : Obligations.SingleOperandFaults := by
  refine ⟨fun s p r hf hadv hp => ⟨?_, ?_⟩, fun s dst r hf hadv hq hd => ?_⟩
  · rw [exec_output_of_checkAdvance hadv, hp]
    exact State.complete_error hf r
  · rw [exec_adjustRelativeBase_of_checkAdvance hadv, hp]
    exact State.complete_error hf r
  · obtain ⟨x, rest, hq⟩ := List.exists_cons_of_ne_nil hq
    rw [exec_input_of_cons hadv hq, hd]
    exact State.complete_error hf r

/-! The results. -/

/-- Settles O24: the destination resolves, so the oldest value is popped and stored there. -/
theorem inputTakesOldest : Obligations.InputTakesOldest := by
  intro s dst x rest d hadv hq hd
  have hip := State.advance_eq_setIp ((s.setQueue rest).memWrite d x) 2
  rw [exec_input_of_cons hadv hq, hd]
  exact congrArg _ hip

/-- Settles O26: the operand resolves, so its value is appended. -/
theorem outputResult : Obligations.OutputResult := by
  intro s p v hadv hp
  have hip := State.advance_eq_setIp (s.appendOutput v) 2
  rw [exec_output_of_checkAdvance hadv, hp]
  exact congrArg _ hip

/-! The frames. -/

/-- Everything Input can do: `exec_completes` for it, with the destination the one its parameter resolves to. -/
theorem exec_input_cases (h : exec (.input dst) s = .next t) :
    (∃ r, t = s.raise r) ∨ (s.iq = [] ∧ t = s.setStatus .waitingForInput) ∨
      ∃ x rest d, s.iq = x :: rest ∧ s.writeAddr 1 dst = .ok d ∧
        t = ((s.setQueue rest).memWrite d x).advance 2 := by
  refine State.raise_or_of_complete h fun hok => ?_
  obtain ⟨-, -, hok⟩ := bind_eq_ok hok
  split at hok
  · next hq =>
    cases hok
    exact .inl ⟨hq, rfl⟩
  · next x rest hq =>
    obtain ⟨d, hd, hok⟩ := bind_eq_ok hok
    cases hok
    exact .inr ⟨x, rest, d, hq, hd, rfl⟩

/-- Settles O35: a fault changes the latch alone, a blocked Input `status` alone; otherwise the one cell written is that
of the destination, and the queue was not empty. -/
theorem inputFrame : Obligations.InputFrame := by
  intro s t dst hw h
  obtain ⟨r, rfl⟩ | ⟨hq, rfl⟩ | ⟨x, rest, d, hq, hd, rfl⟩ := exec_input_cases h
  · exact ⟨rfl, rfl, fun _ _ _ _ => rfl, fun _ _ _ => rfl, fun hq => ⟨rfl, rfl, hq, rfl⟩,
      fun _ _ => ⟨fun _ => rfl, rfl, rfl⟩, fun _ => rfl⟩
  · exact ⟨rfl, rfl, fun _ _ _ _ => rfl, fun _ _ _ => rfl, fun _ => ⟨rfl, rfl, hq, rfl⟩,
      fun _ _ => ⟨fun _ => rfl, rfl, rfl⟩, fun hne => absurd hq hne⟩
  · refine ⟨rfl, rfl, fun d' hd' a ha => ?_, fun d' hd' hlt => ?_, fun hnil => ?_, fun r hr => ?_, fun _ => rfl⟩
    · cases hd.symm.trans hd'
      have hread := State.memRead_memWrite (s := s.setQueue rest) hw d x a
      rw [State.advance_memRead, hread, if_neg ha, State.setQueue_memRead]
    · cases hd.symm.trans hd'
      exact State.memWrite_len_of_lt (s := s.setQueue rest) hlt x
    · cases hq.symm.trans hnil
    · cases hd.symm.trans hr

/-- Either jump writes `ip` or the latch, and nothing else. -/
theorem jumpWhen_frame (h : s.complete (s.jumpWhen taken test target) = .next t) :
    t = { s with ip := t.ip, fault := t.fault } := by
  obtain ⟨r, rfl⟩ | ⟨v1, v2, -, -, rfl⟩ := State.raise_or_of_complete h State.jumpWhen_ok
  · rfl
  · cases taken v1 <;> rfl

/-- Settles O36: what the effect of each instruction writes, by `exec_completes`; a fault writes the latch alone. -/
theorem noStoreFrame : Obligations.NoStoreFrame := by
  refine ⟨fun s t p h => ?_, fun s t p q h => h.elim jumpWhen_frame jumpWhen_frame, fun s t p h => ?_,
    fun s t h => ?_⟩
  · obtain ⟨r, rfl⟩ | hc := exec_completes h
    · exact ⟨rfl, rfl, rfl, rfl, rfl⟩
    · cases hc with
      | emit p v => exact ⟨rfl, rfl, rfl, rfl, rfl⟩
      | store i hi | fall i hi => cases hi
      | jump i _ _ hi => simp at hi
  · obtain ⟨r, rfl⟩ | hc := exec_completes h
    · rfl
    · cases hc with
      | rebase p v => rfl
      | store i hi | fall i hi => cases hi
      | jump i _ _ hi => simp at hi
  · cases h
    rfl

end Sys2Proof.Machine
end

section
/-!
The results of the jumps (R100, R101, R102): one update of `ip`, by the target's value or by the advance, chosen by the
test.
-/
namespace Sys2Proof.Machine

/-- The state a jump leaves, taken when `c` holds, as one update of `ip`. -/
theorem State.setIp_or_advance (s : State) (c : Prop) [Decidable c] (v : Word) (n : Nat) :
    (if c then s.setIp v else s.advance n) = s.setIp (if c then v else s.ip + BitVec.ofNat 64 n) := by
  rw [State.advance_eq_setIp, apply_ite s.setIp]

/-- Settles O27: the two outcomes of `exec_jumpIfTrue` differ only in the value `ip` takes. -/
theorem jumpIfTrueResult : Obligations.JumpIfTrueResult := by
  intro s test target v1 v2 hadv ht hv
  rw [exec_jumpIfTrue hadv ht hv, State.setIp_or_advance]
  rfl

/-- Settles O28: the two outcomes of `exec_jumpIfFalse` differ only in the value `ip` takes. -/
theorem jumpIfFalseResult : Obligations.JumpIfFalseResult := by
  intro s test target v1 v2 hadv ht hv
  rw [exec_jumpIfFalse hadv ht hv, State.setIp_or_advance]
  rfl

end Sys2Proof.Machine
end

section
/-!
The results of the compares (R105, R106): the cell each stores, as a test on the two values, and the next state.
-/
namespace Sys2Proof.Machine

/-- R13: the Boolean result of a test is 1 or 0. -/
theorem boolCell_decide (c : Prop) [Decidable c] : boolCell (decide c) = if c then 1 else 0 := by
  simp only [boolCell, decide_eq_true_eq]

theorem lessCell_eq (x y : Word) : lessCell x y = if x.toInt < y.toInt then 1 else 0 :=
  boolCell_decide _

/-- Equality of the integers is equality of the cells: `toInt` is injective. -/
theorem equalCell_eq (x y : Word) : equalCell x y = if x = y then 1 else 0 := by
  simp only [equalCell, boolCell_decide, BitVec.toInt_inj]

/-- Settles O22: LessThan stores `lessCell`, the signed comparison of the two values. -/
theorem lessThanResult : Obligations.LessThanResult := by
  intro s x y dst v1 v2 d hadv hx hy hd
  rw [← lessCell_eq]
  exact State.complete_computeStore_of_ok hadv hx hy hd

/-- Settles O23: Equals stores `equalCell`, the comparison of the two values as integers. -/
theorem equalsResult : Obligations.EqualsResult := by
  intro s x y dst v1 v2 d hadv hx hy hd
  rw [← equalCell_eq]
  exact State.complete_computeStore_of_ok hadv hx hy hd

end Sys2Proof.Machine
end

section
/-!
The result of AdjustRelativeBase (R110, R80): the wrapped `rb` and the advance, the only two registers it updates.
-/
namespace Sys2Proof.Machine

/-- Settles O29: the operand resolves in the old state, so `rb` takes the wrapped sum and `ip` advances. -/
theorem adjustRelativeBaseResult : Obligations.AdjustRelativeBaseResult := by
  intro s p v hadv hp
  have hip := State.advance_eq_setIp (s.setRb (wrap64 (s.rb.toInt + v.toInt))) 2
  rw [exec_adjustRelativeBase_of_checkAdvance hadv, hp]
  exact congrArg _ hip

end Sys2Proof.Machine
end

section
/-!
The result of Halt (R113, R80): the one instruction without stages, so it completes in every state.
-/
namespace Sys2Proof.Machine

/-- R113: Halt has no operand to resolve and no advance to check; it only writes `status`. -/
theorem exec_halt (s : State) : exec .halt s = .next (s.setStatus .halted) := rfl

/-- Settles O30: `setStatus` updates `status` and no other field, `ip` included. -/
theorem haltResult : Obligations.HaltResult := fun s => by
  rw [exec_halt, State.setStatus]

end Sys2Proof.Machine
end

section
/-!
Faults are precise (R140, R141): what a stage raises is a record that R140 lists for the state the step began in, and a
stage that raises nothing leaves the latch alone.
-/
namespace Sys2Proof.Machine

variable {s t : State} {i : Instr} {r : FaultRecord} {α β : Type}

/-- The records R140 lists for a step from `s`: with the step's `ip`, and the word there or an address outside the
space. -/
def State.MayLatch (s : State) (r : FaultRecord) : Prop :=
  r = .unknownOpcode s.word s.ip ∨
    (∃ a, (a < 0 ∨ 2 ^ 63 - 1 < a) ∧ r = .invalidAddress a s.ip) ∨
    (∃ k, r = .invalidWriteTarget s.word s.ip k) ∨ ∃ k, r = .invalidMode s.word s.ip k

/-- The record of an address outside the space. -/
theorem State.mayLatch_invalidAddress {a : Int} (h : a < 0 ∨ Config.maxAddr < a) :
    s.MayLatch (.invalidAddress a s.ip) :=
  .inr (.inl ⟨a, maxAddr_eq ▸ h, rfl⟩)

theorem State.mayLatch_faultOfDecode (e : DecodeFault) : s.MayLatch (faultOfDecode s.word s.ip e) := by
  cases e with
  | unknownOpcode => exact .inl rfl
  | invalidWriteTarget k => exact .inr (.inr (.inl ⟨k, rfl⟩))
  | invalidMode k => exact .inr (.inr (.inr ⟨k, rfl⟩))

/-- The fetch raises for a negative `ip` or for a word that does not decode, and for nothing else. -/
theorem State.mayLatch_of_fetch (h : s.fetch = .raised r) : s.MayLatch r := by
  by_cases h0 : 0 ≤ s.ip.toInt
  · by_cases hlen : s.len ≤ s.ip.toNat
    · cases h.symm.trans (State.fetch_of_extent_le h0 hlen)
    · cases hdec : decode (s.cellsAt s.ip.toNat) with
      | error e =>
        cases h.symm.trans (State.fetch_of_decode_error h0 (not_le.mp hlen) hdec)
        exact State.mayLatch_faultOfDecode e
      | ok i => cases h.symm.trans (State.fetch_of_fetches ⟨h0, not_le.mp hlen, hdec⟩)
  · have hneg : s.ip.toInt < 0 := not_le.mp h0
    cases h.symm.trans (State.fetch_of_neg hneg)
    exact State.mayLatch_invalidAddress (.inl hneg)

/-- The stages `x` of a step from `s` give a result of which `P` holds, or raise a record that R140 lists. -/
def State.Precise (s : State) (P : α → Prop) : Except FaultRecord α → Prop
  | .ok a => P a
  | .error r => s.MayLatch r

/-- Stages in sequence: the record of the first that raises is the one raised. -/
theorem State.Precise.bind {P : β → Prop} {x : Except FaultRecord α} {f : α → Except FaultRecord β}
    (hx : s.Precise (fun _ => True) x) (hf : ∀ a, s.Precise P (f a)) : s.Precise P (x >>= f) := by
  cases x with
  | error r => exact hx
  | ok a => exact hf a

/-- The end of the stages: the latch is as it was, or the one record raised is taken. -/
theorem State.Precise.of_complete {x : Except FaultRecord State} (hx : s.Precise (·.fault = s.fault) x)
    (h : s.complete x = .next t) : t.fault = s.fault ∨ ∃ r, s.MayLatch r ∧ t = s.raise r := by
  obtain rfl | ⟨r, rfl, rfl⟩ := State.complete_next h
  · exact .inl hx
  · exact .inr ⟨r, hx, rfl⟩

/-! The shared stages. -/

theorem State.checkAddr_precise (a : Int) : s.Precise (fun _ => True) (s.checkAddr a) := by
  by_cases h : 0 ≤ a ∧ a ≤ Config.maxAddr
  · obtain ⟨h0, h1⟩ := h
    rw [State.checkAddr_of_valid h0 h1]
    exact trivial
  · have hout : a < 0 ∨ Config.maxAddr < a := by omega
    rw [State.checkAddr_of_invalid hout]
    exact State.mayLatch_invalidAddress hout

theorem State.checkAdvance_precise (n : Nat) : s.Precise (fun _ => True) (s.checkAdvance n) := by
  rcases le_or_gt (s.ip.toInt + n) Config.maxAddr with h | h
  · rw [State.checkAdvance_ok h]
    exact trivial
  · rw [State.checkAdvance_error h]
    exact State.mayLatch_invalidAddress (.inr h)

theorem State.loadCell_precise (a : Int) : s.Precise (fun _ => True) (s.loadCell a) := by
  have hcheck := s.checkAddr_precise a
  cases hx : s.checkAddr a with
  | ok n =>
    rw [State.loadCell_of_ok hx]
    exact trivial
  | error r =>
    rw [State.loadCell_of_error hx]
    rwa [hx] at hcheck

theorem State.readValue_precise (p : Param) : s.Precise (fun _ => True) (s.readValue p) := by
  obtain ⟨_ | _ | _, raw⟩ := p
  · exact s.loadCell_precise _
  · exact trivial
  · exact s.loadCell_precise _

theorem State.writeAddr_precise (k : Nat) (p : Param) : s.Precise (fun _ => True) (s.writeAddr k p) := by
  obtain ⟨_ | _ | _, raw⟩ := p
  · exact s.checkAddr_precise _
  · exact .inr (.inr (.inl ⟨k, rfl⟩))
  · exact s.checkAddr_precise _

theorem State.computeStore_precise (f : Word → Word → Word) (a b dst : Param) :
    s.Precise (·.fault = s.fault) (s.computeStore f a b dst) :=
  .bind (s.checkAdvance_precise 4) fun _ => .bind (s.readValue_precise a) fun _ =>
    .bind (s.readValue_precise b) fun _ => .bind (s.writeAddr_precise 3 dst) fun _ => rfl

theorem State.jumpWhen_precise (taken : Word → Bool) (test target : Param) :
    s.Precise (·.fault = s.fault) (s.jumpWhen taken test target) :=
  .bind (s.checkAdvance_precise 3) fun _ => .bind (s.readValue_precise test) fun v =>
    .bind (s.readValue_precise target) fun _ => by cases taken v <;> rfl

/-! The instruction and the step. -/

theorem exec_precise (h : exec i s = .next t) : t.fault = s.fault ∨ ∃ r, s.MayLatch r ∧ t = s.raise r := by
  cases i with
  | halt =>
    cases h
    exact .inl rfl
  | add a b dst | multiply a b dst | lessThan a b dst | equals a b dst =>
    exact (s.computeStore_precise _ a b dst).of_complete h
  | jumpIfTrue test target | jumpIfFalse test target => exact (s.jumpWhen_precise _ test target).of_complete h
  | input dst =>
    refine State.Precise.of_complete (.bind (s.checkAdvance_precise 2) fun _ => ?_) h
    split
    · rfl
    · exact .bind (s.writeAddr_precise 1 dst) fun _ => rfl
  | output p | adjustRelativeBase p =>
    refine State.Precise.of_complete ?_ h
    exact .bind (s.checkAdvance_precise 2) fun _ => .bind (s.readValue_precise p) fun _ => rfl

/-- A step leaves the latch as it was, or it is the step of a running core and takes a record that R140 lists. -/
theorem step_precise (h : step s = .next t) :
    t.fault = s.fault ∨ (s.status = .running ∧ ∃ r, s.MayLatch r ∧ t = s.raise r) := by
  obtain ⟨-, ⟨-, rfl⟩ | ⟨hst, ⟨r, hx, rfl⟩ | ⟨-, rfl⟩ | ⟨i, -, hexec⟩⟩⟩ := step_cases h
  · exact .inl rfl
  · exact .inr ⟨hst, r, State.mayLatch_of_fetch hx, rfl⟩
  · exact .inl rfl
  · exact (exec_precise hexec).imp_right fun hraise => ⟨hst, hraise⟩

theorem runEnd_of_fault (h : t.fault = some r) : runEnd t = some (.faulted r) := by
  simp only [runEnd, h]

/-- Settles O13: the latch was empty, so the record in it is the one the step took. -/
theorem faultsArePrecise : Obligations.FaultsArePrecise := by
  intro s t r hf h hr
  obtain hkeep | ⟨hst, r', hlatch, rfl⟩ := step_precise h
  · cases hr.symm.trans (hkeep.trans hf)
  · rw [State.raise_of_fault_none hf] at hr ⊢
    cases hr
    exact ⟨rfl, hst, runEnd_of_fault rfl, hlatch⟩

end Sys2Proof.Machine
end

section
/-!
How a run ends, seen in the state it leaves (R85, R121): the end reported is the one `runEnd` reads off that state.
-/
namespace Sys2Proof.Machine

variable {s t : State} {e : RunEnd} {n : Nat}

theorem runEnd_of_halted (hf : t.fault = none) (hst : t.status = .halted) : runEnd t = some .halted := by
  simp only [runEnd, hf, hst]

/-- The three visible ends. -/
theorem runEnd_cases (h : runEnd t = some e) :
    (e = .halted ∧ t.fault = none ∧ t.status = .halted) ∨
      (e = .blocked ∧ t.fault = none ∧ t.status = .waitingForInput) ∨
      ∃ r, e = .faulted r ∧ t.fault = some r := by
  cases hf : t.fault with
  | some r =>
    cases h.symm.trans (runEnd_of_fault hf)
    exact .inr (.inr ⟨r, rfl, rfl⟩)
  | none =>
    cases hst : t.status with
    | halted =>
      cases h.symm.trans (runEnd_of_halted hf hst)
      exact .inl ⟨rfl, rfl, rfl⟩
    | waitingForInput =>
      cases h.symm.trans (runEnd_of_waiting hf hst)
      exact .inr (.inl ⟨rfl, rfl, rfl⟩)
    | running => cases h.symm.trans (runEnd_eq_none_iff.mpr ⟨hf, hst⟩)

theorem runEnd_of_beginRun (h : beginRun s = .inl e) : runEnd s = some e := by
  cases hf : s.fault with
  | some r =>
    cases h.symm.trans (beginRun_of_fault hf)
    exact runEnd_of_fault hf
  | none =>
    by_cases hst : s.status = .halted
    · cases h.symm.trans (beginRun_of_halted hf hst)
      exact runEnd_of_halted hf hst
    · cases h.symm.trans (beginRun_eq_inr_iff.mpr ⟨hf, hst, rfl⟩)

theorem runEnd_of_runLoop (h : runLoop n s = (some e, t)) : runEnd t = some e := by
  induction n generalizing s with
  | zero => cases h
  | succ n ih =>
    cases hf : s.fault with
    | some r =>
      cases h.symm.trans (runLoop_succ_of_fault hf)
      exact runEnd_of_fault hf
    | none =>
      obtain ⟨u, hstep⟩ := step_total hf
      cases he : runEnd u with
      | some e' =>
        cases h.symm.trans (runLoop_succ_of_runEnd hstep he)
        exact he
      | none =>
        rw [runLoop_succ_of_active hstep (runEnd_eq_none_iff.mp he)] at h
        exact ih h

theorem runEnd_of_runFor (h : runFor n s = (some e, t)) : runEnd t = some e := by
  cases hb : beginRun s with
  | inl e' =>
    cases h.symm.trans (runFor_of_beginRun_inl hb n)
    exact runEnd_of_beginRun hb
  | inr u =>
    rw [runFor_of_beginRun_inr hb] at h
    exact runEnd_of_runLoop h

/-- Settles O49: the end reported is the one `runEnd` sees in the state left. -/
theorem runEndsAreVisible : Obligations.RunEndsAreVisible := fun _ _ _ _ h =>
  runEnd_cases (runEnd_of_runFor h)

end Sys2Proof.Machine
end

section
/-!
The host's transactions on a core between runs (R122 to R128, R131): the result of each, and what any of them can leave.
-/
namespace Sys2Proof.Machine

variable {s t : State} {a : Int} {v : Word}

/-! Input and output. -/

theorem addInput_nil (s : State) : addInput [] s = s := by
  rw [addInput, List.append_nil]

theorem addInput_append (s : State) (vs ws : List Word) : addInput (vs ++ ws) s = addInput ws (addInput vs s) := by
  simp only [addInput, List.append_assoc]

/-- Settles O54: pushing in order is appending to the queue. -/
theorem addInputPushes : Obligations.AddInputPushes := fun s vs ws =>
  ⟨rfl, addInput_nil s, (addInput_append s vs ws).symm⟩

theorem lastOutput_eq_none_iff : lastOutput s = none ↔ s.ob = [] :=
  List.getLast?_eq_none_iff

theorem lastOutput_of_concat {vs : List Word} (h : s.ob = vs ++ [v]) : lastOutput s = some v := by
  rw [lastOutput, h, List.getLast?_concat]

/-- Settles O55: a drained buffer is empty, and the newest value is the last of the buffer. -/
theorem outputTransactions : Obligations.OutputTransactions := fun _ _ _ =>
  ⟨rfl, rfl, rfl, lastOutput_eq_none_iff, lastOutput_of_concat⟩

/-! Poke. -/

theorem poke_of_valid (h0 : 0 ≤ a) (h1 : a ≤ Config.maxAddr) : poke a v s = some (s.memWrite a.toNat v) :=
  if_pos (validAddr_iff.mpr ⟨h0, h1⟩)

theorem poke_of_invalid (h : a < 0 ∨ Config.maxAddr < a) : poke a v s = none :=
  if_neg (by rw [validAddr_iff]; omega)

theorem poke_eq_some (h : poke a v s = some t) : t = s.memWrite a.toNat v := by
  rw [poke, Option.ite_none_right_eq_some] at h
  obtain ⟨-, h⟩ := h
  exact (Option.some.inj h).symm

/-- Settles O56: the transaction answers as `poke` does, and `poke` checks the address. -/
theorem pokeWrites : Obligations.PokeWrites := by
  intro s a v
  rw [← maxAddr_eq]
  refine ⟨fun h0 h1 => ?_, fun h => ?_, fun h => ?_⟩
  · rw [idleMove, poke_of_valid h0 h1]
  · rw [idleMove, poke_of_invalid (.inl h)]
  · rw [idleMove, poke_of_invalid (.inr h)]

/-! The snapshot. -/

theorem memorySnapshot_length (s : State) : (memorySnapshot s).length = s.len := by
  rw [memorySnapshot, List.length_map, List.length_range]

/-- Settles O57: the snapshot reads each cell below the extent once, in order. -/
theorem snapshotIsTheExtent : Obligations.SnapshotIsTheExtent := by
  intro s
  have hlen := memorySnapshot_length s
  refine ⟨rfl, hlen, fun i hi => ?_, fun i hi => ?_, fun hs i => beyondExtentReadsZero s i hs⟩
  · rw [memorySnapshot, List.getElem?_map, List.getElem?_range hi, Option.map_some]
  · exact List.getElem?_eq_none (hlen.trans_le hi)

/-! Any transaction. -/

/-- Everything a transaction other than load leaves of a core that is still between runs. -/
theorem idleMove_cases {op : HostOp} {ans : Answer} (hload : ∀ program input, op ≠ .load program input)
    (h : idleMove op s = .ok (ans, .idle t)) :
    t = s ∨ (∃ vs, t = addInput vs s) ∨ t = (readOutput s).2 ∨ ∃ d v, t = s.memWrite d v := by
  cases op with
  | load program input => exact absurd rfl (hload program input)
  | addInput vs =>
    cases h
    exact .inr (.inl ⟨vs, rfl⟩)
  | readOutput =>
    cases h
    exact .inr (.inr (.inl rfl))
  | poke a v =>
    simp only [idleMove] at h
    split at h
    · next u hpoke =>
      cases h
      exact .inr (.inr (.inr ⟨a.toNat, v, poke_eq_some hpoke⟩))
    · cases h
      exact .inl rfl
  | run =>
    simp only [idleMove] at h
    split at h
    · cases h
      exact .inl rfl
    · cases h
  | lastOutput =>
    simp only [idleMove] at h
    split at h
    all_goals
      cases h
      exact .inl rfl
  | fullOutput | status | memory | fault =>
    cases h
    exact .inl rfl

/-- Settles O58: each of the four things a transaction can leave has the registers as they were. -/
theorem hostWritesNoRegister : Obligations.HostWritesNoRegister := by
  intro op s t ans hload h
  obtain rfl | ⟨vs, rfl⟩ | rfl | ⟨d, v, rfl⟩ := idleMove_cases hload h
  · exact ⟨rfl, rfl, rfl, rfl, le_rfl, ⟨[], (List.append_nil _).symm⟩, .inl rfl⟩
  · exact ⟨rfl, rfl, rfl, rfl, le_rfl, ⟨vs, rfl⟩, .inl rfl⟩
  · exact ⟨rfl, rfl, rfl, rfl, le_rfl, ⟨[], (List.append_nil _).symm⟩, .inr rfl⟩
  · exact ⟨rfl, rfl, rfl, rfl, s.len_le_memWrite_len d v, ⟨[], (List.append_nil _).symm⟩, .inl rfl⟩

end Sys2Proof.Machine
end
